-- ==== Sys2Proof/Word.lean ====
section
/-! DEFINITION. The word of the machine (spec/00_scope.md R5, R6): one width, unsigned, bit 15 the most significant.
Sums of words are `BitVec` addition, that is addition modulo 2^16 (`+16` of R6). -/

namespace Sys2Proof

/-- R5, R6: a word, the width of every register and of every cell of Core Memory. -/
abbrev Word := BitVec 16

end Sys2Proof
end

