-- ==== Sys2Proof/Config.lean ====
section
/-! DEFINITION. What is fixed when a block is constructed (spec/00_scope.md R5, spec/10_state.md R23, spec/70 R150):
the parameters `coreSize`, `debug`, `budgetInit`, and the constants of the design. The fourth parameter, `coreInit`, is
an argument of `State.powerOn` (Machine/HostPort.lean), since it only fills Core Memory once. -/

namespace Sys2Proof

/-- R5, R23: the parameters "fixed at construction" that "never change while the block exists". -/
structure BlockConfig where
  /-- The number of words of Core Memory; addresses are 0 .. coreSize - 1. -/
  coreSize : Nat
  /-- The debug flag: sentinel fill at power-on and step-budget enforcement. -/
  debug : Bool
  /-- The configured step budget, `BUDGET_BITS` = 32 bits wide; ignored when `debug` is off. -/
  budgetInit : BitVec 32
deriving DecidableEq, Repr

namespace Config

/-- R5, R39: the fill value of a debug block's Core Memory, "all-ones". -/
def sentinel : Word := 0xFFFF

/-- R5: the most words a 16-bit address reaches, the upper end of the range of `coreSize`. -/
def maxCoreSize : Nat := 65536

/-- DESIGN CHOICE (notes/assumptions/2.md): the parameters of the block that `State.reset` describes. The spec leaves
them to the constructor; the statements of this package hold for every configuration. Unsafe. -/
def atReset : BlockConfig := { coreSize := maxCoreSize, debug := false, budgetInit := 0 }

end Config

end Sys2Proof
end

