-- ==== Sys2Proof/Syntax.lean ====
section
/-! DEFINITION. The instructions: one constructor per row of spec/opcode_table.json (spec/30_encoding.md R50, R55, R56).
The one format `W` has a function code, four modifier bits and an inline offset. The literal of an instruction whose
D-bit is set is no field of the instruction word: the address-resolution stage reads it from Core Memory (R52, R77). -/

namespace Sys2Proof

/-- R50, R54: the four independent modifier bits of an instruction word. -/
structure Modifiers where
  /-- D-bit, `w[11]`: the base is the literal in the next word. -/
  db : Bool
  /-- P-bit, `w[10]`: add the frame pointer. -/
  pb : Bool
  /-- G-bit, `w[9]`: add the global-base pointer. -/
  gb : Bool
  /-- I-bit, `w[8]`: dereference once. -/
  ib : Bool
deriving DecidableEq, Repr

/-- R55: the ten functions, and two rows for the six codes that name no function (R56, R113). `off` is the inline
offset `w[7:0]`; the hardware ignores it when the D-bit is set, and the decoder keeps it (R53, R56). -/
inductive Instr where
  /-- R90, function code 0. -/
  | load (mods : Modifiers) (off : BitVec 8)
  /-- R91, function code 1. -/
  | add (mods : Modifiers) (off : BitVec 8)
  /-- R92, function code 2. -/
  | store (mods : Modifiers) (off : BitVec 8)
  /-- R100, function code 3. -/
  | call (mods : Modifiers) (off : BitVec 8)
  /-- R101, function code 4. -/
  | jmp (mods : Modifiers) (off : BitVec 8)
  /-- R102, function code 5. -/
  | jmpt (mods : Modifiers) (off : BitVec 8)
  /-- R103, function code 6. -/
  | jmpf (mods : Modifiers) (off : BitVec 8)
  /-- R110, function code 7. -/
  | dump (mods : Modifiers) (off : BitVec 8)
  /-- R111, function code 8. -/
  | exop (mods : Modifiers) (off : BitVec 8)
  /-- R112, function code 9. -/
  | halt (mods : Modifiers) (off : BitVec 8)
  /-- R113, function codes 10 and 11 (`101x`); `func` is the code itself. -/
  | unknown10to11 (func : BitVec 4) (mods : Modifiers) (off : BitVec 8)
  /-- R113, function codes 12 to 15 (`11xx`); `func` is the code itself. -/
  | unknown12to15 (func : BitVec 4) (mods : Modifiers) (off : BitVec 8)
deriving DecidableEq, Repr

end Sys2Proof
end

