-- ==== Sys2Proof/WellFormed.lean ====
section
/-! DEFINITION. Which terms stand for something the spec has: instructions of the opcode map (spec/30_encoding.md R55,
R56) and configurations a block can be constructed with (spec/00_scope.md R5). -/

namespace Sys2Proof

/-- R55, R113: the two rows of unknown codes hold the codes 10, 11 and 12 to 15. Every other operand of every
instruction may take every value of its field (R54: all sixteen modifier combinations are legal with every function). -/
def Instr.wf : Instr → Bool
  | .load _ _ => true
  | .add _ _ => true
  | .store _ _ => true
  | .call _ _ => true
  | .jmp _ _ => true
  | .jmpt _ _ => true
  | .jmpf _ _ => true
  | .dump _ _ => true
  | .exop _ _ => true
  | .halt _ _ => true
  | .unknown10to11 func _ _ => decide (func.toNat = 10 ∨ func.toNat = 11)
  | .unknown12to15 func _ _ => decide (12 ≤ func.toNat)

/-- R5: "1 <= coreSize <= 65536" (the budget's range is its type's). -/
def BlockConfig.wf (cfg : BlockConfig) : Bool :=
  decide (1 ≤ cfg.coreSize ∧ cfg.coreSize ≤ Config.maxCoreSize)

end Sys2Proof
end

