-- ==== Sys2Proof/Decode.lean ====
section
/-! DEFINITION. The decoder, "total" on all 65536 words (spec/30_encoding.md R50, R75), and the encoder (R51). Bit
positions and function codes are the spec's decisions D1 and D2, stated as rules R50 and R55. -/

namespace Sys2Proof

/-- R50: `func = w[15:12]`. -/
def wordFunc (w : Word) : BitVec 4 := w.extractLsb' 12 4

/-- R50: `Db = w[11]`, `Pb = w[10]`, `Gb = w[9]`, `Ib = w[8]`. -/
def wordMods (w : Word) : Modifiers :=
  { db := w.getLsbD 11, pb := w.getLsbD 10, gb := w.getLsbD 9, ib := w.getLsbD 8 }

/-- R50: `off = w[7:0]`. -/
def wordOff (w : Word) : BitVec 8 := w.extractLsb' 0 8

/-- R50, R55, R75: the instruction a word is read as. Decoding cannot fail: a code without a function has a row of its
own, and its fault comes at dispatch (R113). -/
def decode (w : Word) : Instr :=
  match (wordFunc w).toNat with
  | 0 => .load (wordMods w) (wordOff w)
  | 1 => .add (wordMods w) (wordOff w)
  | 2 => .store (wordMods w) (wordOff w)
  | 3 => .call (wordMods w) (wordOff w)
  | 4 => .jmp (wordMods w) (wordOff w)
  | 5 => .jmpt (wordMods w) (wordOff w)
  | 6 => .jmpf (wordMods w) (wordOff w)
  | 7 => .dump (wordMods w) (wordOff w)
  | 8 => .exop (wordMods w) (wordOff w)
  | 9 => .halt (wordMods w) (wordOff w)
  | 10 => .unknown10to11 (wordFunc w) (wordMods w) (wordOff w)
  | 11 => .unknown10to11 (wordFunc w) (wordMods w) (wordOff w)
  | _ => .unknown12to15 (wordFunc w) (wordMods w) (wordOff w)

/-- R55: the function code of an instruction. -/
def Instr.func : Instr → BitVec 4
  | .load _ _ => 0
  | .add _ _ => 1
  | .store _ _ => 2
  | .call _ _ => 3
  | .jmp _ _ => 4
  | .jmpt _ _ => 5
  | .jmpf _ _ => 6
  | .dump _ _ => 7
  | .exop _ _ => 8
  | .halt _ _ => 9
  | .unknown10to11 func _ _ => func
  | .unknown12to15 func _ _ => func

/-- R50: the modifier bits of an instruction. -/
def Instr.mods : Instr → Modifiers
  | .load mods _ => mods
  | .add mods _ => mods
  | .store mods _ => mods
  | .call mods _ => mods
  | .jmp mods _ => mods
  | .jmpt mods _ => mods
  | .jmpf mods _ => mods
  | .dump mods _ => mods
  | .exop mods _ => mods
  | .halt mods _ => mods
  | .unknown10to11 _ mods _ => mods
  | .unknown12to15 _ mods _ => mods

/-- R50: the inline offset of an instruction, kept whatever the D-bit is. -/
def Instr.off : Instr → BitVec 8
  | .load _ off => off
  | .add _ off => off
  | .store _ off => off
  | .call _ off => off
  | .jmp _ off => off
  | .jmpt _ off => off
  | .jmpf _ off => off
  | .dump _ off => off
  | .exop _ off => off
  | .halt _ off => off
  | .unknown10to11 _ _ off => off
  | .unknown12to15 _ _ off => off

/-- R51: `func ## Db ## Pb ## Gb ## Ib ## off`. -/
def packWord (func : BitVec 4) (mods : Modifiers) (off : BitVec 8) : Word :=
  (func ++ BitVec.ofBool mods.db ++ BitVec.ofBool mods.pb ++ BitVec.ofBool mods.gb ++ BitVec.ofBool mods.ib ++ off).cast
    (by decide)

/-- R51: the instruction word of an instruction. -/
def encode (i : Instr) : Word := packWord i.func i.mods i.off

/-- R52: the words an instruction occupies, the literal `lit` behind the instruction word exactly when the D-bit is
set. -/
def encodeWords (i : Instr) (lit : Word) : List Word :=
  if i.mods.db then [encode i, lit] else [encode i]

/-- R52: an instruction's length in words, told from the D-bit alone. -/
def Instr.length (i : Instr) : Nat := if i.mods.db then 2 else 1

/-- The two words of the longest instruction (R52) that spec/opcode_table.json's bit string `w` of `nbits` bits stands
for: bits 15..0 the instruction word, bits 31..16 the literal, every bit from `nbits` up zero. -/
def tableWords (nbits w : Nat) : Word × Word :=
  (BitVec.ofNat 16 (w % 2 ^ nbits), BitVec.ofNat 16 (w % 2 ^ nbits / 65536))

/-- The instruction the decoder reads from a row's bits. The decoder never refuses (R75). -/
def decodeTableWord (nbits w : Nat) : Option Instr :=
  some (decode (tableWords nbits w).1)

end Sys2Proof
end

