-- ==== Sys2Proof/Machine/State.lean ====
section
/-! DEFINITION. The state of the machine, as spec/10_state.md gives it, and its value after power-on (R26). State is plain
data. Memory is word-addressed and its cells are whole words: "a model ... must not split words into bytes" (R33). -/

namespace Sys2Proof.Machine

/-- R7, R10: the six registers by name; `x[0]` .. `x[5]` in this order. -/
inductive Reg where
  | A | B | C | D | P | G
deriving DecidableEq, Repr

/-- R10: the register file, six words. -/
structure Regs where
  /-- R11: the accumulator. -/
  a : Word
  /-- R12: the shadow accumulator. -/
  b : Word
  /-- R13, R17: the program counter. -/
  c : Word
  /-- R14: the address register, the last resolved address. -/
  d : Word
  /-- R15: the frame pointer. -/
  p : Word
  /-- R16: the global-base pointer. -/
  g : Word
deriving DecidableEq, Repr

/-- R30, R33: Core Memory, as the list of the cells that do not read as `unlistedWord`, by address. -/
structure Memory where
  /-- In canonical form: addresses strictly rising, no word equal to `unlistedWord` (`Memory.wf`). -/
  cells : List (Nat × Word)
deriving DecidableEq, Repr

/-- R20: the run state; the code 3 is never held. -/
inductive RunState where
  /-- A step request executes one instruction. -/
  | running
  /-- Entered by `halt` (R112); left only by a reset. -/
  | halted
  /-- Entered by any fault (R129); left only by a reset. -/
  | faulted
deriving DecidableEq, Repr

/-- R121: the cause codes 0 to 7, in the order of their codes. -/
inductive Cause where
  /-- Code 0: no fault recorded. -/
  | none
  /-- Code 1: of construction, outside the block; never in CAUSE (R127). -/
  | outOfMemory
  /-- Code 2 (R122). -/
  | pcOutOfRange
  /-- Code 3: of the assembler/loader, outside the block; never in CAUSE (R127). -/
  | asmSegmentOutOfRange
  /-- Code 4 (R123). -/
  | indirectAddressOutOfRange
  /-- Code 5 (R124). -/
  | storeAddressOutOfRange
  /-- Code 6 (R125). -/
  | stepBudgetExceeded
  /-- Code 7 (R126). -/
  | unknownFunctionCode
deriving DecidableEq, Repr

/-- R21: the fault record, written once when the run state becomes FAULTED. -/
structure FaultRecord where
  cause : Cause
  /-- The value of C at the start of the faulting step. -/
  fpc : Word
  /-- The offending address (R130). -/
  faddr : Word
  /-- The function code of the faulting instruction word, or 0 when no word was fetched. -/
  ffunc : BitVec 4
deriving DecidableEq, Repr

/-- R26: the record when no fault is recorded, all fields 0. -/
def FaultRecord.empty : FaultRecord := { cause := .none, fpc := 0, faddr := 0, ffunc := 0 }

/-- R7, R134: the non-fatal outcome marks of a step. -/
inductive Event where
  /-- R110: `dump`, with the six registers as they stand at dispatch. -/
  | dump (snapshot : Regs)
  /-- R111: `exop`'s report. -/
  | unimplemented
  /-- R112: `halt`'s notification. -/
  | halt
deriving DecidableEq, Repr

/-- The whole state: R10 to R22 and R30; with it the event outputs of the request just served (R28, R134), the
loader's write cursor (R26, R157) and the configuration (R23), which no step writes. -/
structure State where
  /-- R10: the register file. -/
  regs : Regs
  /-- R30: Core Memory. -/
  mem : Memory
  /-- R20: RS. -/
  rs : RunState
  /-- R21: CAUSE, FPC, FADDR, FFUNC. -/
  record : FaultRecord
  /-- R22: BUDGET, the steps that may still complete; used only when `debug` is on. -/
  budget : BitVec 32
  /-- R28, R134: the event of the step request just served, if any. -/
  event : Option Event
  /-- R26, R157: the assembler's write cursor, outside the block. -/
  cursor : Nat
  /-- R23: the construction parameters. -/
  cfg : BlockConfig
deriving DecidableEq, Repr

/-- Why a step stops without a next state. The spec's own faults (R121) are not here: a faulting step has the next state
that R129 describes. -/
inductive Fault where
  /-- Raised by `step` alone, in a state whose `coreSize` lies outside 1 .. 65536: no block can be constructed with it
  (R5), so the spec defines no step of it. Safe: no state of a constructed block has it. -/
  | noSuchBlock
deriving DecidableEq, Repr

/-- Why an instruction has no meaning. -/
inductive Refusal where
  /-- Raised by an arm of `exec` for an instruction without a meaning; no arm does so. Safe. -/
  | notModelled (mnemonic : String)
deriving DecidableEq, Repr

/-- R39, and notes/assumptions/3.md (DESIGN CHOICE for a block with `debug` off, unsafe): what a cell that is not listed
reads as. It is the sentinel, so that a debug block's memory after power-on lists nothing. Any other initial content
(`coreInit`) is a memory that lists its cells. -/
def unlistedWord : Word := Config.sentinel

/-- R26, R150: the state after power-on of the block with the parameters `Config.atReset`: every register 0, RS RUNNING,
the record empty, BUDGET = `budgetInit`, the write cursor 0, memory with nothing listed. -/
def State.reset : State :=
  { regs := { a := 0, b := 0, c := 0, d := 0, p := 0, g := 0 }
    mem := { cells := [] }
    rs := .running
    record := FaultRecord.empty
    budget := Config.atReset.budgetInit
    event := none
    cursor := 0
    cfg := Config.atReset }

end Sys2Proof.Machine
end

