-- ==== Sys2Proof/Machine/Ops.lean ====
section
/-! DEFINITION. The named operations over registers and Core Memory (spec/20_memory.md), the bounds checker (R37), and
taking a fault (spec/60_exceptions.md R129, R130) with, beside it, the one way out of it, the soft reset (R132, R152). -/

namespace Sys2Proof.Machine

/-- R7: reading a register by its name. -/
def Regs.get (r : Regs) : Reg → Word
  | .A => r.a
  | .B => r.b
  | .C => r.c
  | .D => r.d
  | .P => r.p
  | .G => r.g

/-- The word a list of cells holds at an address; `unlistedWord` where it lists none. -/
def lookupCell : List (Nat × Word) → Nat → Word
  | [], _ => unlistedWord
  | (k, v) :: rest, a => if k = a then v else lookupCell rest a

/-- The cells at every other address. -/
def eraseCell : List (Nat × Word) → Nat → List (Nat × Word)
  | [], _ => []
  | (k, v) :: rest, a => if k = a then eraseCell rest a else (k, v) :: eraseCell rest a

/-- The cells with one more, placed before the first higher address. -/
def insertCell : List (Nat × Word) → Nat → Word → List (Nat × Word)
  | [], a, v => [(a, v)]
  | (k, x) :: rest, a, v => if a < k then (a, v) :: (k, x) :: rest else (k, x) :: insertCell rest a v

/-- R7, R35: the word of one cell, "the value of the last write to that address ... or, if there was none, the initial
content". -/
def Memory.read (m : Memory) (a : Nat) : Word := lookupCell m.cells a

/-- R7, R35: one cell set to a word; no other cell changes. The canonical form is kept: a cell that is set to what an
unlisted cell reads as is listed no more. -/
def Memory.write (m : Memory) (a : Nat) (v : Word) : Memory :=
  if v = unlistedWord then { cells := eraseCell m.cells a }
  else { cells := insertCell (eraseCell m.cells a) a v }

/-- Every address of the list is above `lo`. -/
def cellsAbove (lo : Nat) (cells : List (Nat × Word)) : Bool := cells.all (fun cell => decide (lo < cell.1))

/-- The canonical form of a list of cells: addresses strictly rising, no word equal to `unlistedWord`. -/
def cellsWf : List (Nat × Word) → Bool
  | [] => true
  | (k, v) :: rest => decide (v ≠ unlistedWord) && cellsAbove k rest && cellsWf rest

/-- The memory is in canonical form, so that equal memories are equal data. -/
def Memory.wf (m : Memory) : Bool := cellsWf m.cells

/-- R30: every listed cell lies below `n`. -/
def Memory.below (m : Memory) (n : Nat) : Bool := m.cells.all (fun cell => decide (cell.1 < n))

/-- R39: the memory of `n` cells whose contents a function gives, in canonical form. -/
def Memory.ofFn (n : Nat) (f : Nat → Word) : Memory :=
  { cells := (List.range n).filterMap (fun a => if f a = unlistedWord then none else some (a, f a)) }

/-- R37: the bounds checker, "an unsigned comparison of a 16-bit address with a value of up to 65536". -/
def State.inCore (s : State) (addr : Word) : Bool := decide (addr.toNat < s.cfg.coreSize)

/-- R7: `MemRead(addr, 1)`. -/
def State.memRead (s : State) (addr : Word) : Word := s.mem.read addr.toNat

/-- R7: `MemWrite(addr, 1, v)`. -/
def State.memWrite (s : State) (addr : Word) (v : Word) : State := { s with mem := s.mem.write addr.toNat v }

/-- R7: `raise <Fault>(addr)`, or without an address for the two causes that have none of their own (R125, R126). -/
structure Raise where
  cause : Cause
  addr : Option Word
deriving DecidableEq, Repr

/-- R129, R130: fault entry. RS and the fault record are written and nothing else: "A, B, C, D, P, G, BUDGET and every
cell of Core Memory keep the values they had before the step". `s` is the state before the step; `func` is the function
code of the fetched word, 0 if none was fetched. A fault raised without an address records FPC as FADDR (R125, R126).
No event goes with a fault (R134). Control goes nowhere (R131). -/
def takeFault (func : BitVec 4) (r : Raise) (s : State) : State :=
  { s with
    rs := .faulted
    record := { cause := r.cause, fpc := s.regs.c, faddr := r.addr.getD s.regs.c, ffunc := func }
    event := none }

/-- R152, R26, R132: soft reset, the only way out of FAULTED and HALTED besides power-on. Registers to zero, RS RUNNING,
the record cleared; Core Memory, BUDGET, the configuration and the write cursor unchanged. -/
def State.softReset (s : State) : State :=
  { s with
    regs := { a := 0, b := 0, c := 0, d := 0, p := 0, g := 0 }
    rs := .running
    record := FaultRecord.empty
    event := none }

end Sys2Proof.Machine
end

