-- ==== Sys2Proof/Machine/Operands.lean ====
section
/-! DEFINITION. The address-resolution unit (spec/40_step_and_resolve.md R76 to R81): four stages in the fixed order D, P,
G, I. The state is the one before the step: C is the address of the instruction word. -/

namespace Sys2Proof.Machine

/-- R6: `zext_16`. -/
def zext16 (v : BitVec 8) : Word := v.setWidth 16

/-- R6: `sext_16`, "defined for completeness ... and used by no rule". -/
def sext16 (v : BitVec 8) : Word := v.signExtend 16

/-- R74: `pc1`, the post-fetch program counter, which is also the address of the literal (R77). -/
def postFetchPc (s : State) : Word := s.regs.c + 1

/-- R77: `pc2`, past the literal exactly when the D-bit is set. -/
def advancedPc (mods : Modifiers) (s : State) : Word :=
  if mods.db then postFetchPc s + 1 else postFetchPc s

/-- R77, stage 1: the literal, or the post-fetch program counter plus the zero-extended inline offset. -/
def baseAddress (mods : Modifiers) (off : BitVec 8) (s : State) : Word :=
  if mods.db then s.memRead (postFetchPc s) else postFetchPc s + zext16 off

/-- R78, stage 2. -/
def addFrame (mods : Modifiers) (s : State) (ea : Word) : Word := if mods.pb then ea + s.regs.p else ea

/-- R79, stage 3. -/
def addGlobal (mods : Modifiers) (s : State) (ea : Word) : Word := if mods.gb then ea + s.regs.g else ea

/-- R77 to R79: the address the first three stages compute, a pointer's address when the I-bit is set. -/
def pointerAddress (mods : Modifiers) (off : BitVec 8) (s : State) : Word :=
  addGlobal mods s (addFrame mods s (baseAddress mods off s))

/-- R80, stage 4: one dereference; the word read is used as it is. -/
def dereference (mods : Modifiers) (s : State) (ea : Word) : Word := if mods.ib then s.memRead ea else ea

/-- R81: the effective address, the value written to D. -/
def effectiveAddress (mods : Modifiers) (off : BitVec 8) (s : State) : Word :=
  dereference mods s (pointerAddress mods off s)

/-- R76: what the unit produces: the effective address and the advanced program counter. -/
structure Resolved where
  pc : Word
  ea : Word
deriving DecidableEq, Repr

/-- R76 to R80: the resolution with its two bounds checks, the literal's (R77) before the pointer's (R80). -/
def resolve (mods : Modifiers) (off : BitVec 8) (s : State) : Except Raise Resolved :=
  if mods.db && !s.inCore (postFetchPc s) then
    .error { cause := .pcOutOfRange, addr := some (postFetchPc s) }
  else if mods.ib && !s.inCore (pointerAddress mods off s) then
    .error { cause := .indirectAddressOutOfRange, addr := some (pointerAddress mods off s) }
  else
    .ok { pc := advancedPc mods s, ea := effectiveAddress mods off s }

end Sys2Proof.Machine
end

