-- ==== Sys2Proof/Machine/Cycle.lean ====
section
/-! DEFINITION. The parts of a step that every instruction shares (spec/40_step_and_resolve.md R70 to R84): the entry
checks, the fetch, the resolution before dispatch, and the completion after it. -/

namespace Sys2Proof.Machine

/-- R71: a step request while RS is not RUNNING. Nothing changes and no event is raised. -/
def idle (s : State) : State := { s with event := none }

/-- R72, R73: the two entry checks, the program counter's before the budget's. -/
def entryCheck (s : State) : Except Raise Unit :=
  if !s.inCore s.regs.c then .error { cause := .pcOutOfRange, addr := some s.regs.c }
  else if s.cfg.debug && s.budget == 0 then .error { cause := .stepBudgetExceeded, addr := none }
  else .ok ()

/-- R74, R75: FETCH and DECODE, behind the entry checks. -/
def fetchInstr (s : State) : Except Raise Instr :=
  match entryCheck s with
  | .error r => .error r
  | .ok () => .ok (decode (s.memRead s.regs.c))

/-- R80: `C <- pc2` and `D <- ea`, the writes that end the resolution; the step's event is none until its arm marks one
(R134). -/
def State.resolved (s : State) (r : Resolved) : State :=
  { s with regs := { s.regs with c := r.pc, d := r.ea }, event := none }

/-- R73, R83: BUDGET after a step that completes. -/
def spendBudget (s : State) : BitVec 32 := if s.cfg.debug then s.budget - 1 else s.budget

/-- R83: completion, the last thing a step without a fault does. -/
def complete (s : State) : State := { s with budget := spendBudget s }

/-- R70, R82, R83: RESOLVE-ADDRESS, then the dispatch arm on the state with the new C and D, then completion. A `raise`
anywhere discards every write of the step and takes the fault in the state before it (R129). -/
def perform (func : BitVec 4) (mods : Modifiers) (off : BitVec 8) (arm : State → Except Raise State) (s : State) :
    Host.Outcome State Fault Refusal :=
  match resolve mods off s with
  | .error r => .next (takeFault func r s)
  | .ok r =>
    match arm (s.resolved r) with
    | .error r => .next (takeFault func r s)
    | .ok t => .next (complete t)

end Sys2Proof.Machine
end

