-- ==== Sys2Proof/Machine/Flags.lean ====
section
/-! DEFINITION. "The hardware has no status flags, no condition codes and no predicates" (spec/10_state.md R19): no
instruction computes a flag. What stands in their place is the test of the accumulator by the conditional jumps. -/

namespace Sys2Proof.Machine

/-- R19, R102: the condition of `jmpt`, "all sixteen bits compared with zero". -/
def accNonzero (s : State) : Bool := decide (s.regs.a ≠ 0)

/-- R19, R103: the condition of `jmpf`. -/
def accZero (s : State) : Bool := decide (s.regs.a = 0)

end Sys2Proof.Machine
end

