-- ==== Sys2Proof/Machine/Control.lean ====
section
/-! DEFINITION. `call`, `jmp`, `jmpt`, `jmpf` (spec/42_control_transfer.md). In an arm, D is the address just resolved and
C the advanced program counter. No transfer checks its target (R104). -/

namespace Sys2Proof.Machine

/-- R100: `fa = D +16 P`, the address of the new frame. -/
def frameAddress (s : State) : Word := s.regs.d + s.regs.p

/-- R100: both cells of the frame at `fa` lie in Core Memory; `fa + 1` is a 17-bit sum, not wrapped. -/
def frameInCore (s : State) (fa : Word) : Bool := decide (fa.toNat + 1 < s.cfg.coreSize)

/-- R100: the new frame at `fa` holds the old P and, behind it, the return address. -/
def pushFrame (s : State) (fa : Word) : State :=
  (s.memWrite fa s.regs.p).memWrite (fa + 1) s.regs.c

/-- R100: the frame is written, D and P become its address, and control goes to the address held in A. -/
def callArm (s : State) : Except Raise State :=
  let fa := frameAddress s
  if frameInCore s fa then
    .ok { pushFrame s fa with regs := { s.regs with d := fa, p := fa, c := s.regs.a } }
  else .error { cause := .storeAddressOutOfRange, addr := some fa }

/-- R101: `C <- D`. -/
def jumpToD (s : State) : State := { s with regs := { s.regs with c := s.regs.d } }

/-- R101: unconditional. -/
def jmpArm (s : State) : Except Raise State := .ok (jumpToD s)

/-- R102: `if A != 0: C <- D`. -/
def jmptArm (s : State) : Except Raise State := .ok (if accNonzero s then jumpToD s else s)

/-- R103: `if A = 0: C <- D`. -/
def jmpfArm (s : State) : Except Raise State := .ok (if accZero s then jumpToD s else s)

/-- R100: `call`, function code 3. -/
def execCall (mods : Modifiers) (off : BitVec 8) (s : State) : Host.Outcome State Fault Refusal :=
  perform 3 mods off callArm s

/-- R101: `jmp`, function code 4. -/
def execJmp (mods : Modifiers) (off : BitVec 8) (s : State) : Host.Outcome State Fault Refusal :=
  perform 4 mods off jmpArm s

/-- R102: `jmpt`, function code 5. -/
def execJmpt (mods : Modifiers) (off : BitVec 8) (s : State) : Host.Outcome State Fault Refusal :=
  perform 5 mods off jmptArm s

/-- R103: `jmpf`, function code 6. -/
def execJmpf (mods : Modifiers) (off : BitVec 8) (s : State) : Host.Outcome State Fault Refusal :=
  perform 6 mods off jmpfArm s

end Sys2Proof.Machine
end

