-- ==== Sys2Proof/Machine/Data.lean ====
section
/-! DEFINITION. `load`, `add`, `store` (spec/41_load_add_store.md). In an arm, D is the address just resolved and C the
advanced program counter. -/

namespace Sys2Proof.Machine

/-- R90: `B <- A; A <- D`. -/
def loadArm (s : State) : Except Raise State :=
  .ok { s with regs := { s.regs with b := s.regs.a, a := s.regs.d } }

/-- R91: `A <- A +16 D`. -/
def addArm (s : State) : Except Raise State :=
  .ok { s with regs := { s.regs with a := s.regs.a + s.regs.d } }

/-- R92: `Core[D] <- A`, bounds-checked. -/
def storeArm (s : State) : Except Raise State :=
  if s.inCore s.regs.d then .ok (s.memWrite s.regs.d s.regs.a)
  else .error { cause := .storeAddressOutOfRange, addr := some s.regs.d }

/-- R90: `load`, function code 0. -/
def execLoad (mods : Modifiers) (off : BitVec 8) (s : State) : Host.Outcome State Fault Refusal :=
  perform 0 mods off loadArm s

/-- R91: `add`, function code 1. -/
def execAdd (mods : Modifiers) (off : BitVec 8) (s : State) : Host.Outcome State Fault Refusal :=
  perform 1 mods off addArm s

/-- R92: `store`, function code 2. -/
def execStore (mods : Modifiers) (off : BitVec 8) (s : State) : Host.Outcome State Fault Refusal :=
  perform 2 mods off storeArm s

end Sys2Proof.Machine
end

