-- ==== Sys2Proof/Machine/System.lean ====
section
/-! DEFINITION. `dump`, `exop`, `halt` and the codes without a function (spec/43_system.md). The stages before the arm run
for them as for every instruction (R70). -/

namespace Sys2Proof.Machine

/-- R110: the event `dump` with "the six registers as they stand at dispatch"; no register changes in the arm. -/
def dumpArm (s : State) : Except Raise State := .ok { s with event := some (.dump s.regs) }

/-- R111: the event `unimplemented`; the condition is reported, not fatal. -/
def exopArm (s : State) : Except Raise State := .ok { s with event := some .unimplemented }

/-- R112: `RS <- HALTED` and the event `halt`. -/
def haltArm (s : State) : Except Raise State := .ok { s with rs := .halted, event := some .halt }

/-- R113, R126: `raise UnknownFunctionCode()`. -/
def unknownArm (_ : State) : Except Raise State := .error { cause := .unknownFunctionCode, addr := none }

/-- R110: `dump`, function code 7. -/
def execDump (mods : Modifiers) (off : BitVec 8) (s : State) : Host.Outcome State Fault Refusal :=
  perform 7 mods off dumpArm s

/-- R111: `exop`, function code 8. -/
def execExop (mods : Modifiers) (off : BitVec 8) (s : State) : Host.Outcome State Fault Refusal :=
  perform 8 mods off exopArm s

/-- R112: `halt`, function code 9. -/
def execHalt (mods : Modifiers) (off : BitVec 8) (s : State) : Host.Outcome State Fault Refusal :=
  perform 9 mods off haltArm s

/-- R113: function codes 10 and 11. -/
def execUnknown10to11 (func : BitVec 4) (mods : Modifiers) (off : BitVec 8) (s : State) :
    Host.Outcome State Fault Refusal :=
  perform func mods off unknownArm s

/-- R113: function codes 12 to 15. -/
def execUnknown12to15 (func : BitVec 4) (mods : Modifiers) (off : BitVec 8) (s : State) :
    Host.Outcome State Fault Refusal :=
  perform func mods off unknownArm s

end Sys2Proof.Machine
end

