-- ==== Sys2Proof/Machine/Dispatch.lean ====
section
/-! DEFINITION. DISPATCH (spec/40_step_and_resolve.md R82): one arm per row of spec/opcode_table.json. -/

namespace Sys2Proof.Machine

def exec (i : Instr) (s : State) : Host.Outcome State Fault Refusal :=
  match i with
  | .load mods off => Sys2Proof.Machine.execLoad mods off s
  | .add mods off => Sys2Proof.Machine.execAdd mods off s
  | .store mods off => Sys2Proof.Machine.execStore mods off s
  | .call mods off => Sys2Proof.Machine.execCall mods off s
  | .jmp mods off => Sys2Proof.Machine.execJmp mods off s
  | .jmpt mods off => Sys2Proof.Machine.execJmpt mods off s
  | .jmpf mods off => Sys2Proof.Machine.execJmpf mods off s
  | .dump mods off => Sys2Proof.Machine.execDump mods off s
  | .exop mods off => Sys2Proof.Machine.execExop mods off s
  | .halt mods off => Sys2Proof.Machine.execHalt mods off s
  | .unknown10to11 func mods off => Sys2Proof.Machine.execUnknown10to11 func mods off s
  | .unknown12to15 func mods off => Sys2Proof.Machine.execUnknown12to15 func mods off s

end Sys2Proof.Machine
end

