-- ==== Sys2Proof/Machine/HostPort.lean ====
section
/-! DEFINITION. What the host may do between steps (spec/70_reset_and_hazards.md R155) and what it sees
(spec/10_state.md R28, R29): construction, setting G, the loader's write path, inspect, the status outputs. The soft
reset is `State.softReset` (Machine/Ops.lean), the step request `step`. -/

namespace Sys2Proof.Machine

/-- R39, R150: Core Memory after construction, the sentinel in every cell when `debug` is on, else `coreInit`. -/
def initialMemory (cfg : BlockConfig) (coreInit : Nat → Word) : Memory :=
  if cfg.debug then Memory.ofFn cfg.coreSize (fun _ => Config.sentinel) else Memory.ofFn cfg.coreSize coreInit

/-- R26, R150: power-on, for every configuration and every `coreInit`. -/
def State.powerOn (cfg : BlockConfig) (coreInit : Nat → Word) : State :=
  { regs := { a := 0, b := 0, c := 0, d := 0, p := 0, g := 0 }
    mem := initialMemory cfg coreInit
    rs := .running
    record := FaultRecord.empty
    budget := cfg.budgetInit
    event := none
    cursor := 0
    cfg := cfg }

/-- R158: the host's write of G through `g_we`, `g_wdata`; accepted in any run state, and nothing else changes. DESIGN
CHOICE (notes/assumptions/16.md, with 5.md): an event that stands on the outputs stays, and `snap` then shows the new
G. -/
def State.setG (s : State) (v : Word) : State := { s with regs := { s.regs with g := v } }

/-- R28, R127: the loader's write path `ld_we`, `ld_addr`, `ld_wdata`; a write at or above `coreSize` is refused and
changes nothing. -/
def State.loaderWrite (s : State) (addr : Word) (v : Word) : State :=
  if s.inCore addr then s.memWrite addr v else s

/-- R29: inspect of one cell: `insp_word` with `insp_valid` = 1, or none for `insp_valid` = 0. The state is not
touched. -/
def State.inspect (s : State) (addr : Word) : Option Word :=
  if s.inCore addr then some (s.memRead addr) else none

/-- R29: the decoded fields of an inspected cell. -/
def State.inspectInstr (s : State) (addr : Word) : Option Instr := (s.inspect addr).map decode

/-- R20: the code of the run state on the `rs` output. -/
def RunState.code : RunState → BitVec 2
  | .running => 0
  | .halted => 1
  | .faulted => 2

/-- R121: the cause codes on the `cause` output. -/
def Cause.code : Cause → BitVec 3
  | .none => 0
  | .outOfMemory => 1
  | .pcOutOfRange => 2
  | .asmSegmentOutOfRange => 3
  | .indirectAddressOutOfRange => 4
  | .storeAddressOutOfRange => 5
  | .stepBudgetExceeded => 6
  | .unknownFunctionCode => 7

/-- R28: the status, event and snapshot outputs. DESIGN CHOICE (notes/assumptions/15.md): BUDGET has no output, as in the
port table of R28 and the inspect row of R27, although R25 counts it among what is visible on outputs. -/
structure StatusPort where
  rs : BitVec 2
  cause : BitVec 3
  fpc : Word
  faddr : Word
  ffunc : BitVec 4
  evDump : Bool
  evUnimpl : Bool
  evHalt : Bool
  snap : Regs
deriving DecidableEq, Repr

/-- R134: the event is a dump. -/
def isDump : Option Event → Bool
  | some (.dump _) => true
  | _ => false

/-- R28: what the host reads on the outputs between steps. DESIGN CHOICE (notes/assumptions/16.md): `snap` is the register
file as it now is, also while `evDump` is up; the registers at the dump's dispatch stay in `State.event`. -/
def State.status (s : State) : StatusPort :=
  { rs := s.rs.code
    cause := s.record.cause.code
    fpc := s.record.fpc
    faddr := s.record.faddr
    ffunc := s.record.ffunc
    evDump := isDump s.event
    evUnimpl := decide (s.event = some .unimplemented)
    evHalt := decide (s.event = some .halt)
    snap := s.regs }

end Sys2Proof.Machine
end

