-- ==== Sys2Proof/Machine/Step.lean ====
section
/-! DEFINITION. One step request (spec/40_step_and_resolve.md R70): the entry checks, the fetch, the decode, and `exec` of
the instruction decoded. -/

namespace Sys2Proof.Machine

/-- R70 to R75: a step request. Not RUNNING: nothing happens (R71). An entry check that fails takes its fault with
function code 0, no word being fetched (R72, R73). Otherwise the fetched instruction runs. A state that is no
constructed block's (R5) has no step. -/
def step (s : State) : Host.Outcome State Fault Refusal :=
  if !s.cfg.wf then .fault .noSuchBlock
  else if s.rs ≠ .running then .next (idle s)
  else
    match fetchInstr s with
    | .error r => .next (takeFault 0 r s)
    | .ok i => exec i s

/-- The state with the two words of a table row's bits stored where the next step fetches: at C and behind it, by the
loader's write path. -/
def State.withFetchWord (s : State) (nbits w : Nat) : State :=
  (s.loaderWrite s.regs.c (tableWords nbits w).1).loaderWrite (s.regs.c + 1) (tableWords nbits w).2

end Sys2Proof.Machine
end

