-- ==== Sys2Proof/Machine/Assembler.lean ====
section
/-! DEFINITION. The assembler and loader (spec/30_encoding.md R60 to R68, spec/70_reset_and_hazards.md R157), software
outside the block (R4): text to words, and words into Core Memory at the write cursor. No step uses this file. -/

namespace Sys2Proof.Machine

/-- R67: the errors (a) to (g) of the assembly, all fatal to it. -/
inductive AsmError where
  /-- (a): the write cursor would pass `coreSize`. -/
  | segmentOutOfRange
  /-- (b) -/
  | illegalCharacter
  /-- (c) -/
  | numberTooLarge
  /-- (d) -/
  | offsetTooLarge
  /-- (e) -/
  | repeatedModifier
  /-- (f) -/
  | missingLiteral
  /-- (g) -/
  | modifiersWithoutFunction
deriving DecidableEq, Repr

/-- R64: the modifier letters. -/
inductive ModLetter where
  | d | p | g | i
deriving DecidableEq, Repr

/-- R61: the three classes of tokens. -/
inductive Token where
  | number (n : Nat)
  | function (func : BitVec 4)
  | modifier (m : ModLetter)
deriving DecidableEq, Repr

/-- R63: the function letters and their codes (R55). -/
def functionLetter (ch : Char) : Option (BitVec 4) :=
  match ch with
  | 'l' => some 0
  | 'a' => some 1
  | 's' => some 2
  | 'c' => some 3
  | 'j' => some 4
  | 't' => some 5
  | 'f' => some 6
  | 'u' => some 7
  | 'x' => some 8
  | 'h' => some 9
  | _ => none

/-- R64: the modifier letters. -/
def modifierLetter (ch : Char) : Option ModLetter :=
  match ch with
  | 'd' => some .d
  | 'p' => some .p
  | 'g' => some .g
  | 'i' => some .i
  | _ => none

/-- R62: the value of a hexadecimal digit of either case. -/
def hexDigit (ch : Char) : Option Nat :=
  let n := ch.toNat
  if 48 ≤ n ∧ n ≤ 57 then some (n - 48)
  else if 97 ≤ n ∧ n ≤ 102 then some (n - 87)
  else if 65 ≤ n ∧ n ≤ 70 then some (n - 55)
  else none

/-- R62: a number begins with a decimal digit. -/
def startsNumber (ch : Char) : Bool := decide (48 ≤ ch.toNat ∧ ch.toNat ≤ 57)

/-- Where the lexer stands: between tokens, in a comment, or in a number of the value read so far. -/
inductive LexState where
  | between
  | comment
  | number (n : Nat)
deriving DecidableEq, Repr

/-- R61 to R64: a character that is not inside a number or a comment: the state it leads to and the token it is. -/
def lexStart (ch : Char) : Except AsmError (LexState × List Token) :=
  if ch.isWhitespace then .ok (.between, [])
  else if ch = ';' then .ok (.comment, [])
  else if startsNumber ch then .ok (.number ((hexDigit ch).getD 0), [])
  else
    match functionLetter ch, modifierLetter ch with
    | some func, _ => .ok (.between, [.function func])
    | none, some m => .ok (.between, [.modifier m])
    | none, none => .error .illegalCharacter

/-- R62: a number that has ended is at most 0xFFFF. -/
def endNumber (n : Nat) : Except AsmError (List Token) :=
  if n ≤ 0xFFFF then .ok [.number n] else .error .numberTooLarge

/-- R61, R62: one character; the number's run of hexadecimal digits is maximal. -/
def lexChar (st : LexState) (ch : Char) : Except AsmError (LexState × List Token) :=
  match st with
  | .between => lexStart ch
  | .comment => .ok (if ch = '\n' then .between else .comment, [])
  | .number n =>
    match hexDigit ch with
    | some v => .ok (.number (n * 16 + v), [])
    | none =>
      match endNumber n, lexStart ch with
      | .error e, _ => .error e
      | _, .error e => .error e
      | .ok ts, .ok (st', ts') => .ok (st', ts ++ ts')

/-- R61 to R64: the tokens of a text. -/
def tokens (st : LexState) : List Char → Except AsmError (List Token)
  | [] =>
    match st with
    | .number n => endNumber n
    | .between => .ok []
    | .comment => .ok []
  | ch :: rest =>
    match lexChar st ch with
    | .error e => .error e
    | .ok (st', ts) =>
      match tokens st' rest with
      | .error e => .error e
      | .ok ts' => .ok (ts ++ ts')

/-- R64: the modifier bits the accumulated letters set. -/
def lettersMods (ms : List ModLetter) : Modifiers :=
  { db := ms.contains .d, pb := ms.contains .p, gb := ms.contains .g, ib := ms.contains .i }

/-- R65: the words of one instruction, given the number directly behind its function letter, if any. -/
def emitInstr (func : BitVec 4) (mods : Modifiers) (n : Option Nat) : Except AsmError (List Word) :=
  if mods.db then
    match n with
    | none => .error .missingLiteral
    | some lit => .ok [packWord func mods 0, BitVec.ofNat 16 lit]
  else if n.getD 0 ≤ 0xFF then .ok [packWord func mods (BitVec.ofNat 8 (n.getD 0))]
  else .error .offsetTooLarge

/-- Words in front of what the rest of the program emits. -/
def emitBefore (ws rest : Except AsmError (List Word)) : Except AsmError (List Word) :=
  match ws, rest with
  | .error e, _ => .error e
  | _, .error e => .error e
  | .ok ws, .ok ws' => .ok (ws ++ ws')

/-- R65, R66: the words of a program; `ms` are the modifier letters accumulated since the last function letter. -/
def emit (ms : List ModLetter) : List Token → Except AsmError (List Word)
  | [] => if ms.isEmpty then .ok [] else .error .modifiersWithoutFunction
  | .modifier m :: rest => if ms.contains m then .error .repeatedModifier else emit (m :: ms) rest
  | .number n :: rest =>
    if ms.isEmpty then emitBefore (.ok [BitVec.ofNat 16 n]) (emit [] rest) else .error .modifiersWithoutFunction
  | .function func :: .number n :: rest => emitBefore (emitInstr func (lettersMods ms) (some n)) (emit [] rest)
  | .function func :: rest => emitBefore (emitInstr func (lettersMods ms) none) (emit [] rest)

/-- R60 to R66: the words of a program text. -/
def assemble (text : List Char) : Except AsmError (List Word) :=
  match tokens .between text with
  | .error e => .error e
  | .ok ts => emit [] ts

/-- R157: each word goes to `Core[cursor]` and the cursor advances by one; the load fails where the cursor would pass
`coreSize`. -/
def State.loadWords (s : State) : List Word → Except AsmError State
  | [] => .ok s
  | w :: rest =>
    if s.cursor < s.cfg.coreSize then
      State.loadWords { s with mem := s.mem.write s.cursor w, cursor := s.cursor + 1 } rest
    else .error .segmentOutOfRange

/-- R157: the host's Load, of a program text. A load that fails is abandoned and leaves no state to step (R127). -/
def State.loadText (s : State) (text : List Char) : Except AsmError State :=
  match assemble text with
  | .error e => .error e
  | .ok ws => s.loadWords ws

end Sys2Proof.Machine
end

