-- ==== Sys2Proof/Safety.lean ====
section
/-! DEFINITION. The terms the statements use: when an operand can be resolved, when a call's frame fits, what holds in
every state of a constructed block, and how a run ends (spec/70_reset_and_hazards.md R159). -/

namespace Sys2Proof.Safety

open Sys2Proof Sys2Proof.Machine

/-- R77, R80: neither of the two bounds checks of the address resolution fails. -/
abbrev Resolvable (mods : Modifiers) (off : BitVec 8) (s : State) : Prop :=
  (mods.db = true → (s.regs.c + 1).toNat < s.cfg.coreSize) ∧
  (mods.ib = true → (pointerAddress mods off s).toNat < s.cfg.coreSize)

/-- R52, R77: the address of the word behind the instruction, and behind its literal if it has one. -/
def nextInstr (mods : Modifiers) (s : State) : Word := s.regs.c + (if mods.db then 2 else 1)

/-- R73: BUDGET after a step that completes. -/
def budgetAfter (s : State) : BitVec 32 := if s.cfg.debug then s.budget - 1 else s.budget

/-- R129, R130: the state a faulting step leaves, from the state before it. -/
def faultedWith (s : State) (cause : Cause) (faddr : Word) (func : BitVec 4) : State :=
  { s with rs := .faulted, record := { cause := cause, fpc := s.regs.c, faddr := faddr, ffunc := func }, event := none }

/-- R5, R20, R21, R26, R30, R121, R127, R157: what holds in every state of a constructed block. -/
structure BlockInv (s : State) : Prop where
  /-- R5: the configuration is one a block can be constructed with. -/
  cfg_wf : s.cfg.wf = true
  /-- The memory is in canonical form. -/
  mem_wf : s.mem.wf = true
  /-- R30: no cell is listed at or above `coreSize`. -/
  mem_below : s.mem.below s.cfg.coreSize = true
  /-- R21: no fault is recorded unless RS is FAULTED. -/
  record_empty : s.rs ≠ .faulted → s.record = FaultRecord.empty
  /-- R21: a fault is recorded when it is. -/
  record_cause : s.rs = .faulted → s.record.cause ≠ .none
  /-- R127: the two kinds outside the block are never in CAUSE. -/
  not_outOfMemory : s.record.cause ≠ .outOfMemory
  not_asmSegment : s.record.cause ≠ .asmSegmentOutOfRange
  /-- R157: the write cursor never passes `coreSize`. -/
  cursor_le : s.cursor ≤ s.cfg.coreSize

/-- R112, R159: the normal end of a run. -/
def Final (s : State) : Prop := s.rs = .halted ∧ s.record.cause = .none

/-- `k` step requests, one after another. -/
def run (k : Nat) (s : State) : Host.Outcome State Fault Refusal := Host.Core.run Sys2Proof.core k s

end Sys2Proof.Safety
end

