-- ==== Sys2Proof/Certificates/Slice0/Obligations.lean ====
section
/-! DEFINITION. The statements for the provers. Each docstring names the rules of spec/ it rests on. -/

open Sys2Proof Sys2Proof.Machine Sys2Proof.Safety

/-! ### Encoding -/

/-- R50: the six fields of an instruction word, as numbers, and the decoder finds them in every word. -/
def Obligations.DecodeSlicesTheSixFields : Prop :=
  ∀ w : Word,
    (decode w).func.toNat = w.toNat / 4096 ∧
    (decode w).mods.db = decide (w.toNat / 2048 % 2 = 1) ∧
    (decode w).mods.pb = decide (w.toNat / 1024 % 2 = 1) ∧
    (decode w).mods.gb = decide (w.toNat / 512 % 2 = 1) ∧
    (decode w).mods.ib = decide (w.toNat / 256 % 2 = 1) ∧
    (decode w).off.toNat = w.toNat % 256

/-- R51: packing is the formula, decoding an encoded well-formed instruction gives it back, and encoding a decoded word
gives it back, for all 65536 words. -/
def Obligations.DecodeAndEncodeAreInverse : Prop :=
  (∀ i : Instr, i.wf = true → decode (encode i) = i) ∧
  (∀ w : Word, (decode w).wf = true ∧ encode (decode w) = w) ∧
  (∀ i : Instr, (encode i).toNat =
    i.func.toNat * 4096 + i.mods.db.toNat * 2048 + i.mods.pb.toNat * 1024 + i.mods.gb.toNat * 512
      + i.mods.ib.toNat * 256 + i.off.toNat)

/-- R55, R113: which words are which function, by match and mask. -/
def Obligations.OpcodeMapByMask : Prop :=
  ∀ w : Word,
    ((∃ m o, decode w = .load m o) ↔ w &&& 0xF000 = 0x0000) ∧
    ((∃ m o, decode w = .add m o) ↔ w &&& 0xF000 = 0x1000) ∧
    ((∃ m o, decode w = .store m o) ↔ w &&& 0xF000 = 0x2000) ∧
    ((∃ m o, decode w = .call m o) ↔ w &&& 0xF000 = 0x3000) ∧
    ((∃ m o, decode w = .jmp m o) ↔ w &&& 0xF000 = 0x4000) ∧
    ((∃ m o, decode w = .jmpt m o) ↔ w &&& 0xF000 = 0x5000) ∧
    ((∃ m o, decode w = .jmpf m o) ↔ w &&& 0xF000 = 0x6000) ∧
    ((∃ m o, decode w = .dump m o) ↔ w &&& 0xF000 = 0x7000) ∧
    ((∃ m o, decode w = .exop m o) ↔ w &&& 0xF000 = 0x8000) ∧
    ((∃ m o, decode w = .halt m o) ↔ w &&& 0xF000 = 0x9000) ∧
    ((∃ f m o, decode w = .unknown10to11 f m o) ↔ w &&& 0xE000 = 0xA000) ∧
    ((∃ f m o, decode w = .unknown12to15 f m o) ↔ w &&& 0xC000 = 0xC000)

/-- R50, R55, R69: a few of the spec's own words decode to the instructions they stand for. -/
def Obligations.SampleWordsDecode : Prop :=
  decode 0x0005 = .load ⟨false, false, false, false⟩ 0x05 ∧
  decode 0x1103 = .add ⟨false, false, false, true⟩ 0x03 ∧
  decode 0x2A00 = .store ⟨true, false, true, false⟩ 0x00 ∧
  decode 0x38A7 = .call ⟨true, false, false, false⟩ 0xA7 ∧
  decode 0x4D00 = .jmp ⟨true, true, false, true⟩ 0x00 ∧
  decode 0x9000 = .halt ⟨false, false, false, false⟩ 0x00 ∧
  decode 0xFFFF = .unknown12to15 15 ⟨true, true, true, true⟩ 0xFF

/-- R53, R56: two words with the D-bit that differ only in the inline offset execute alike in every state. -/
def Obligations.OffsetIsIgnoredWithTheDBit : Prop :=
  ∀ (w₁ w₂ : Word) (s : State),
    w₁.toNat / 256 = w₂.toNat / 256 → w₁.getLsbD 11 = true → exec (decode w₁) s = exec (decode w₂) s

/-! ### Address resolution -/

/-- R77 to R80: the four stages in the order D, P, G, I, with both bounds checks, in arithmetic on the state before the
step. -/
def Obligations.AddressResolutionByStages : Prop :=
  ∀ (mods : Modifiers) (off : BitVec 8) (s : State) (pc1 base ptr : Word),
    pc1 = s.regs.c + 1 →
    base = (if mods.db then s.mem.read pc1.toNat else pc1 + off.setWidth 16) →
    ptr = base + (if mods.pb then s.regs.p else 0) + (if mods.gb then s.regs.g else 0) →
    (mods.db = true → s.cfg.coreSize ≤ pc1.toNat →
      resolve mods off s = .error { cause := .pcOutOfRange, addr := some pc1 }) ∧
    ((mods.db = true → pc1.toNat < s.cfg.coreSize) → mods.ib = true → s.cfg.coreSize ≤ ptr.toNat →
      resolve mods off s = .error { cause := .indirectAddressOutOfRange, addr := some ptr }) ∧
    ((mods.db = true → pc1.toNat < s.cfg.coreSize) → (mods.ib = true → ptr.toNat < s.cfg.coreSize) →
      resolve mods off s = .ok
        { pc := s.regs.c + (if mods.db then 2 else 1)
          ea := if mods.ib then s.mem.read ptr.toNat else ptr })

/-- R81: the value of each of the sixteen address forms, row by row of the table. -/
def Obligations.SixteenAddressForms : Prop :=
  ∀ (off : BitVec 8) (s : State) (pc1 nn lit : Word) (core : Word → Word),
    pc1 = s.regs.c + 1 → nn = off.setWidth 16 → (∀ a, core a = s.mem.read a.toNat) → lit = core pc1 →
    effectiveAddress ⟨false, false, false, false⟩ off s = pc1 + nn ∧
    effectiveAddress ⟨false, false, false, true⟩ off s = core (pc1 + nn) ∧
    effectiveAddress ⟨false, false, true, false⟩ off s = pc1 + nn + s.regs.g ∧
    effectiveAddress ⟨false, false, true, true⟩ off s = core (pc1 + nn + s.regs.g) ∧
    effectiveAddress ⟨false, true, false, false⟩ off s = pc1 + nn + s.regs.p ∧
    effectiveAddress ⟨false, true, false, true⟩ off s = core (pc1 + nn + s.regs.p) ∧
    effectiveAddress ⟨false, true, true, false⟩ off s = pc1 + nn + s.regs.p + s.regs.g ∧
    effectiveAddress ⟨false, true, true, true⟩ off s = core (pc1 + nn + s.regs.p + s.regs.g) ∧
    effectiveAddress ⟨true, false, false, false⟩ off s = lit ∧
    effectiveAddress ⟨true, false, false, true⟩ off s = core lit ∧
    effectiveAddress ⟨true, false, true, false⟩ off s = lit + s.regs.g ∧
    effectiveAddress ⟨true, false, true, true⟩ off s = core (lit + s.regs.g) ∧
    effectiveAddress ⟨true, true, false, false⟩ off s = lit + s.regs.p ∧
    effectiveAddress ⟨true, true, false, true⟩ off s = core (lit + s.regs.p) ∧
    effectiveAddress ⟨true, true, true, false⟩ off s = lit + s.regs.p + s.regs.g ∧
    effectiveAddress ⟨true, true, true, true⟩ off s = core (lit + s.regs.p + s.regs.g)

/-- R122 (b), R123, R128: whatever the function, a literal outside Core Memory and then a pointer outside it fault before
the function is looked at, with the record R130 gives. -/
def Obligations.ResolutionFaultsForEveryFunction : Prop :=
  ∀ (i : Instr) (s : State),
    (i.mods.db = true → s.cfg.coreSize ≤ (s.regs.c + 1).toNat →
      exec i s = .next (faultedWith s .pcOutOfRange (s.regs.c + 1) i.func)) ∧
    ((i.mods.db = true → (s.regs.c + 1).toNat < s.cfg.coreSize) → i.mods.ib = true →
      s.cfg.coreSize ≤ (pointerAddress i.mods i.off s).toNat →
      exec i s = .next
        (faultedWith s .indirectAddressOutOfRange (pointerAddress i.mods i.off s) i.func))

/-- R84 (b), R14: after a step that does not fault D holds the resolved address, and after `call` the resolved address
plus the old P. -/
def Obligations.CompletedStepWritesD : Prop :=
  ∀ (i : Instr) (s t : State), i.wf = true → s.rs ≠ .faulted → exec i s = .next t → t.rs ≠ .faulted →
    t.regs.d = effectiveAddress i.mods i.off s + (if i.func = 3 then s.regs.p else 0)

/-! ### load, add, store -/

/-- R90: B takes the old A, A the resolved address; D and C are the resolution's; nothing else changes. -/
def Obligations.LoadShiftsTheAccumulator : Prop :=
  ∀ (mods : Modifiers) (off : BitVec 8) (s : State), Resolvable mods off s →
    exec (.load mods off) s = .next { s with
      regs := { s.regs with
        a := effectiveAddress mods off s
        b := s.regs.a
        c := nextInstr mods s
        d := effectiveAddress mods off s }
      budget := budgetAfter s
      event := none }

/-- R91: A takes A plus the resolved address modulo 2^16; B is not written; nothing else changes. -/
def Obligations.AddAddsTheResolvedAddress : Prop :=
  ∀ (mods : Modifiers) (off : BitVec 8) (s : State), Resolvable mods off s →
    ∃ t, exec (.add mods off) s = .next t ∧
      t.regs.a.toNat = (s.regs.a.toNat + (effectiveAddress mods off s).toNat) % 65536 ∧
      t = { s with
        regs := { s.regs with a := t.regs.a, c := nextInstr mods s, d := effectiveAddress mods off s }
        budget := budgetAfter s
        event := none }

/-- R92: the cell at the resolved address takes A; every other cell, and every register but C and D, is unchanged. -/
def Obligations.StoreWritesTheResolvedCell : Prop :=
  ∀ (mods : Modifiers) (off : BitVec 8) (s : State), Resolvable mods off s →
    (effectiveAddress mods off s).toNat < s.cfg.coreSize →
    ∃ t, exec (.store mods off) s = .next t ∧
      t.mem.read (effectiveAddress mods off s).toNat = s.regs.a ∧
      (∀ x, x ≠ (effectiveAddress mods off s).toNat → t.mem.read x = s.mem.read x) ∧
      t = { s with
        regs := { s.regs with c := nextInstr mods s, d := effectiveAddress mods off s }
        mem := t.mem
        budget := budgetAfter s
        event := none }

/-- R92, R124: a store whose target lies outside Core Memory faults and writes nothing but RS and the record. -/
def Obligations.StoreOutOfRangeFaults : Prop :=
  ∀ (mods : Modifiers) (off : BitVec 8) (s : State), Resolvable mods off s →
    s.cfg.coreSize ≤ (effectiveAddress mods off s).toNat →
    exec (.store mods off) s = .next
      (faultedWith s .storeAddressOutOfRange (effectiveAddress mods off s) 2)

/-! ### call and the jumps -/

/-- R100: the frame at the resolved address plus the old P holds the old P and the return address; D and P are its
address, C is A; every other cell, and A, B and G, are unchanged. -/
def Obligations.CallBuildsTheFrame : Prop :=
  ∀ (mods : Modifiers) (off : BitVec 8) (s : State) (fa : Word), s.cfg.wf = true → Resolvable mods off s →
    fa = effectiveAddress mods off s + s.regs.p → fa.toNat + 1 < s.cfg.coreSize →
    ∃ t, exec (.call mods off) s = .next t ∧
      t.mem.read fa.toNat = s.regs.p ∧
      t.mem.read (fa.toNat + 1) = nextInstr mods s ∧
      (∀ x, x ≠ fa.toNat → x ≠ fa.toNat + 1 → t.mem.read x = s.mem.read x) ∧
      t = { s with
        regs := { s.regs with c := s.regs.a, d := fa, p := fa }
        mem := t.mem
        budget := budgetAfter s
        event := none }

/-- R100, R124: a call whose frame does not fit faults with the frame's address, and neither cell is written. -/
def Obligations.CallOutOfRangeFaults : Prop :=
  ∀ (mods : Modifiers) (off : BitVec 8) (s : State) (fa : Word), Resolvable mods off s →
    fa = effectiveAddress mods off s + s.regs.p → s.cfg.coreSize ≤ fa.toNat + 1 →
    exec (.call mods off) s = .next (faultedWith s .storeAddressOutOfRange fa 3)

/-- R105, R100 (g): the jump half of a return. After a call, wherever `d p i j 0001` runs with the frame intact, it goes
to the address behind the call, and P stays at the callee's frame. -/
def Obligations.ReturnJumpReachesTheCaller : Prop :=
  ∀ (mods : Modifiers) (off off' : BitVec 8) (s t u : State), s.cfg.wf = true → s.rs = .running →
    exec (.call mods off) s = .next t → t.rs = .running →
    u.mem = t.mem → u.cfg = t.cfg → u.regs.p = t.regs.p →
    (u.regs.c + 1).toNat < u.cfg.coreSize → u.mem.read (u.regs.c + 1).toNat = 1 →
    ∃ v, exec (.jmp ⟨true, true, false, true⟩ off') u = .next v ∧
      v.regs.c = nextInstr mods s ∧ v.regs.p = t.regs.p

/-- R101: C and D take the resolved address; nothing else changes. -/
def Obligations.JmpGoesToTheResolvedAddress : Prop :=
  ∀ (mods : Modifiers) (off : BitVec 8) (s : State), Resolvable mods off s →
    exec (.jmp mods off) s = .next { s with
      regs := { s.regs with c := effectiveAddress mods off s, d := effectiveAddress mods off s }
      budget := budgetAfter s
      event := none }

/-- R102: as `jmp` when A is not zero; else only D and the advanced C are written. -/
def Obligations.JmptJumpsWhenANonzero : Prop :=
  ∀ (mods : Modifiers) (off : BitVec 8) (s : State), Resolvable mods off s →
    exec (.jmpt mods off) s = .next { s with
      regs := { s.regs with
        c := if s.regs.a = 0 then nextInstr mods s else effectiveAddress mods off s
        d := effectiveAddress mods off s }
      budget := budgetAfter s
      event := none }

/-- R103: as `jmp` when A is zero; else only D and the advanced C are written. -/
def Obligations.JmpfJumpsWhenAZero : Prop :=
  ∀ (mods : Modifiers) (off : BitVec 8) (s : State), Resolvable mods off s →
    exec (.jmpf mods off) s = .next { s with
      regs := { s.regs with
        c := if s.regs.a = 0 then effectiveAddress mods off s else nextInstr mods s
        d := effectiveAddress mods off s }
      budget := budgetAfter s
      event := none }

/-! ### dump, exop, halt and the unknown codes -/

/-- R110: the event carries the six registers with the new C and D; no register but C and D changes. -/
def Obligations.DumpEmitsTheRegisters : Prop :=
  ∀ (mods : Modifiers) (off : BitVec 8) (s : State), Resolvable mods off s →
    exec (.dump mods off) s = .next { s with
      regs := { s.regs with c := nextInstr mods s, d := effectiveAddress mods off s }
      budget := budgetAfter s
      event := some (.dump
        { a := s.regs.a
          b := s.regs.b
          c := nextInstr mods s
          d := effectiveAddress mods off s
          p := s.regs.p
          g := s.regs.g }) }

/-- R111: the step completes with the event `unimplemented`; RS stays as it was. -/
def Obligations.ExopReportsUnimplemented : Prop :=
  ∀ (mods : Modifiers) (off : BitVec 8) (s : State), Resolvable mods off s →
    exec (.exop mods off) s = .next { s with
      regs := { s.regs with c := nextInstr mods s, d := effectiveAddress mods off s }
      budget := budgetAfter s
      event := some .unimplemented }

/-- R112: RS becomes HALTED with the event `halt`; the step completes normally otherwise. -/
def Obligations.HaltStopsTheMachine : Prop :=
  ∀ (mods : Modifiers) (off : BitVec 8) (s : State), Resolvable mods off s →
    exec (.halt mods off) s = .next { s with
      regs := { s.regs with c := nextInstr mods s, d := effectiveAddress mods off s }
      rs := .halted
      budget := budgetAfter s
      event := some .halt }

/-- R113, R126: a code without a function faults at dispatch; FPC and FADDR are the word's address, FFUNC the code. -/
def Obligations.UnknownCodesFault : Prop :=
  ∀ (func : BitVec 4) (mods : Modifiers) (off : BitVec 8) (s : State), Resolvable mods off s →
    exec (.unknown10to11 func mods off) s = .next (faultedWith s .unknownFunctionCode s.regs.c func) ∧
    exec (.unknown12to15 func mods off) s = .next (faultedWith s .unknownFunctionCode s.regs.c func)

/-! ### The step -/

/-- R70, R74, R75: a step past its entry checks is `exec` of the instruction decoded from the word at C. -/
def Obligations.StepRunsTheDecodedInstruction : Prop :=
  ∀ (i : Instr) (s : State), s.cfg.wf = true → s.rs = .running → s.regs.c.toNat < s.cfg.coreSize →
    (s.cfg.debug = true → s.budget ≠ 0) → decode (s.mem.read s.regs.c.toNat) = i → i.wf = true →
    step s = exec i s

/-- R71: a step request while HALTED or FAULTED changes nothing; no event stands on the outputs after it. -/
def Obligations.StepWhileStoppedDoesNothing : Prop :=
  ∀ s : State, s.cfg.wf = true → s.rs ≠ .running → step s = .next { s with event := none }

/-- R72, R73, R125, R128: the entry checks, the program counter's before the budget's, with their records. -/
def Obligations.EntryChecksInOrder : Prop :=
  ∀ s : State, s.cfg.wf = true → s.rs = .running →
    (s.cfg.coreSize ≤ s.regs.c.toNat → step s = .next (faultedWith s .pcOutOfRange s.regs.c 0)) ∧
    (s.regs.c.toNat < s.cfg.coreSize → s.cfg.debug = true → s.budget = 0 →
      step s = .next (faultedWith s .stepBudgetExceeded s.regs.c 0))

/-- THE MODEL'S CHOICE (notes/assumptions/4.md): in a constructed block every step request has a next state, a faulting
one too. R129 and R131 describe the state a fault leaves; R120 also allows a model that answers a fault value instead of a
next state, and R159 (b) ends the run there. -/
def Obligations.EveryStepHasANextState : Prop :=
  ∀ s : State, s.cfg.wf = true → ∃ t, step s = .next t

/-- R129: a faulting step commits RS and the fault record and nothing else; FPC is C, and the cause is one a step can
raise (R127). -/
def Obligations.FaultsArePrecise : Prop :=
  ∀ s t : State, s.rs = .running → step s = .next t → t.rs = .faulted →
    t = { s with rs := .faulted, record := t.record, event := none } ∧
    t.record.fpc = s.regs.c ∧
    t.record.cause ≠ .none ∧ t.record.cause ≠ .outOfMemory ∧ t.record.cause ≠ .asmSegmentOutOfRange

/-- R130: what FPC, FADDR and FFUNC record, cause by cause, and when each cause is raised. -/
def Obligations.FaultRecordByCause : Prop :=
  ∀ (s t : State) (i : Instr), s.rs = .running → i = decode (s.mem.read s.regs.c.toNat) →
    step s = .next t → t.rs = .faulted →
    t.record.fpc = s.regs.c ∧
    match t.record.cause with
    | .pcOutOfRange =>
      (s.cfg.coreSize ≤ s.regs.c.toNat ∧ t.record.faddr = s.regs.c ∧ t.record.ffunc = 0) ∨
      (s.regs.c.toNat < s.cfg.coreSize ∧ i.mods.db = true ∧ s.cfg.coreSize ≤ (s.regs.c + 1).toNat ∧
        t.record.faddr = s.regs.c + 1 ∧ t.record.ffunc = i.func)
    | .indirectAddressOutOfRange =>
      i.mods.ib = true ∧ s.cfg.coreSize ≤ (pointerAddress i.mods i.off s).toNat ∧
        t.record.faddr = pointerAddress i.mods i.off s ∧ t.record.ffunc = i.func
    | .storeAddressOutOfRange =>
      (i.func = 2 ∧ s.cfg.coreSize ≤ (effectiveAddress i.mods i.off s).toNat ∧
        t.record.faddr = effectiveAddress i.mods i.off s ∧ t.record.ffunc = 2) ∨
      (i.func = 3 ∧ s.cfg.coreSize ≤ (effectiveAddress i.mods i.off s + s.regs.p).toNat + 1 ∧
        t.record.faddr = effectiveAddress i.mods i.off s + s.regs.p ∧ t.record.ffunc = 3)
    | .stepBudgetExceeded =>
      s.cfg.debug = true ∧ s.budget = 0 ∧ t.record.faddr = s.regs.c ∧ t.record.ffunc = 0
    | .unknownFunctionCode =>
      10 ≤ i.func.toNat ∧ t.record.faddr = s.regs.c ∧ t.record.ffunc = i.func
    | .none => False
    | .outOfMemory => False
    | .asmSegmentOutOfRange => False

/-- R27, R11, R12, R15, R16, R31: which instruction may change which register, Core Memory and RS. -/
def Obligations.WhoWritesWhat : Prop :=
  ∀ (i : Instr) (s t : State), i.wf = true → exec i s = .next t →
    (t.regs.a ≠ s.regs.a → i.func = 0 ∨ i.func = 1) ∧
    (t.regs.b ≠ s.regs.b → i.func = 0) ∧
    (t.regs.p ≠ s.regs.p → i.func = 3) ∧
    t.regs.g = s.regs.g ∧
    (t.mem ≠ s.mem → i.func = 2 ∨ i.func = 3) ∧
    (t.rs ≠ s.rs → t.rs = .faulted ∨ (t.rs = .halted ∧ i.func = 9)) ∧
    t.cursor = s.cursor ∧ t.cfg = s.cfg

/-- R84 (a): after a step that does not fault and whose arm does not write C, C is past the instruction. -/
def Obligations.ProgramCounterPassesTheInstruction : Prop :=
  ∀ (i : Instr) (s t : State), i.wf = true → s.rs ≠ .faulted → exec i s = .next t → t.rs ≠ .faulted →
    i.func ≠ 3 → i.func ≠ 4 → (i.func = 5 → s.regs.a = 0) → (i.func = 6 → s.regs.a ≠ 0) →
    t.regs.c = s.regs.c + (if i.mods.db then 2 else 1)

/-- R14: the old value of D is no input of an instruction. -/
def Obligations.OldDIsNoInput : Prop :=
  ∀ (i : Instr) (s : State) (x : Word), s.rs ≠ .faulted →
    ∃ t t', exec i s = .next t ∧ exec i { s with regs := { s.regs with d := x } } = .next t' ∧
      t' = { t with regs := { t.regs with d := t'.regs.d } } ∧
      (t.rs ≠ .faulted → t' = t)

/-- R140 (a), R22: the debug flag and BUDGET do not change the meaning of any instruction. -/
def Obligations.DebugDoesNotChangeMeanings : Prop :=
  ∀ (i : Instr) (s : State) (n : BitVec 32) (dbg : Bool),
    ∃ t t', exec i s = .next t ∧
      exec i { s with budget := n, cfg := { s.cfg with debug := dbg } } = .next t' ∧
      t'.regs = t.regs ∧ t'.mem = t.mem ∧ t'.rs = t.rs ∧ t'.record = t.record ∧ t'.event = t.event

/-- R37: no access reaches past `coreSize`. Words listed there neither change nor matter. -/
def Obligations.OnlyCoreMemoryMatters : Prop :=
  ∀ (s t : State) (m : Memory), s.cfg.wf = true →
    (∀ a, a < s.cfg.coreSize → m.read a = s.mem.read a) → step s = .next t →
    (∀ a, s.cfg.coreSize ≤ a → t.mem.read a = s.mem.read a) ∧
    ∃ t', step { s with mem := m } = .next t' ∧
      (∀ a, a < s.cfg.coreSize → t'.mem.read a = t.mem.read a) ∧
      t = { t' with mem := t.mem }

/-- R44: a store into the cell behind the instruction is what the next step runs. -/
def Obligations.StoreIsSeenByTheNextFetch : Prop :=
  ∀ (mods : Modifiers) (off : BitVec 8) (s t : State), s.cfg.wf = true → s.rs = .running →
    exec (.store mods off) s = .next t → t.rs = .running →
    effectiveAddress mods off s = nextInstr mods s → (t.cfg.debug = true → t.budget ≠ 0) →
    step t = exec (decode s.regs.a) t

/-- R112, R159: a step that leaves RS HALTED ran a `halt` and is the normal end of a run. -/
def Obligations.HaltedIsTheNormalEnd : Prop :=
  ∀ s t : State, BlockInv s → s.rs = .running → step s = .next t → t.rs = .halted →
    (decode (s.mem.read s.regs.c.toNat)).func = 9 ∧ t.event = some .halt ∧ Final t

/-! ### Invariants and runs -/

/-- R5, R20, R21, R30, R121, R127: what holds in every state of a constructed block is kept by every step. -/
def Obligations.StepKeepsBlockInv : Prop :=
  ∀ s t : State, BlockInv s → step s = .next t → BlockInv t

/-- R26: it holds at reset. -/
def Obligations.ResetHasBlockInv : Prop := BlockInv State.reset

/-- R155: every action of the host keeps it, and every power-on with a valid configuration has it. -/
def Obligations.HostActionsKeepBlockInv : Prop :=
  (∀ (cfg : BlockConfig) (coreInit : Nat → Word), cfg.wf = true → BlockInv (State.powerOn cfg coreInit)) ∧
  (∀ s : State, BlockInv s → BlockInv s.softReset) ∧
  (∀ (s : State) (v : Word), BlockInv s → BlockInv (s.setG v)) ∧
  (∀ (s : State) (addr v : Word), BlockInv s → BlockInv (s.loaderWrite addr v)) ∧
  (∀ (s t : State) (text : List Char), BlockInv s → s.loadText text = .ok t → BlockInv t)

/-- R20, R71, R132: HALTED and FAULTED are not left by any number of step requests. -/
def Obligations.StoppedStaysStopped : Prop :=
  ∀ (k : Nat) (s : State), s.cfg.wf = true → s.rs ≠ .running →
    run (k + 1) s = .next { s with event := none }

/-- R16, R23, R158: over any number of steps the configuration, G and the write cursor are constant. -/
def Obligations.RunKeepsConfigurationAndG : Prop :=
  ∀ (k : Nat) (s t : State), run k s = .next t →
    t.cfg = s.cfg ∧ t.regs.g = s.regs.g ∧ t.cursor = s.cursor

/-- R73: with a budget of N, N completed steps leave BUDGET = 0 and step N + 1 is the one that faults; none of the first
N does so for the budget. -/
def Obligations.BudgetRunsOutExactly : Prop :=
  ∀ (s t : State) (k : Nat), BlockInv s → s.rs = .running → s.cfg.debug = true → run k s = .next t →
    (k ≤ s.budget.toNat → t.record.cause ≠ .stepBudgetExceeded) ∧
    (t.rs = .running → t.budget.toNat + k = s.budget.toNat) ∧
    (k = s.budget.toNat → t.rs = .running → t.regs.c.toNat < t.cfg.coreSize →
      step t = .next (faultedWith t .stepBudgetExceeded t.regs.c 0))

/-! ### Reset and the host -/

/-- R26, R39, R150, R152: the table of reset values, after power-on and after soft reset. -/
def Obligations.ResetTable : Prop :=
  (∀ (cfg : BlockConfig) (coreInit : Nat → Word) (t : State), t = State.powerOn cfg coreInit →
    (∀ r, t.regs.get r = 0) ∧ t.rs = .running ∧
    t.record.cause = .none ∧ t.record.fpc = 0 ∧ t.record.faddr = 0 ∧ t.record.ffunc = 0 ∧
    t.budget = cfg.budgetInit ∧ t.cursor = 0 ∧ t.cfg = cfg ∧
    (∀ a, a < cfg.coreSize → t.mem.read a = if cfg.debug then 0xFFFF else coreInit a)) ∧
  (∀ s t : State, t = s.softReset →
    (∀ r, t.regs.get r = 0) ∧ t.rs = .running ∧
    t.record.cause = .none ∧ t.record.fpc = 0 ∧ t.record.faddr = 0 ∧ t.record.ffunc = 0 ∧
    t.budget = s.budget ∧ t.cursor = s.cursor ∧ t.cfg = s.cfg ∧ t.mem = s.mem)

/-- THE MODEL'S CHOICE (notes/assumptions/2.md and 3.md): `State.reset` is the power-on of a block of 65536 words with
`debug` off whose uninitialised memory holds 0xFFFF. -/
def Obligations.ResetIsOnePowerOn : Prop :=
  State.reset = State.powerOn Config.atReset (fun _ => 0xFFFF) ∧
  Config.atReset.coreSize = 65536 ∧ Config.atReset.debug = false

/-- R153: after any number of steps a soft reset restores the registers to zero and leaves Core Memory as the steps left
it; two soft resets equal one; one directly after power-on changes nothing. -/
def Obligations.SoftResetIsIdempotent : Prop :=
  (∀ (k : Nat) (s t : State), run k s = .next t →
    (∀ r, t.softReset.regs.get r = 0) ∧ (∀ a, t.softReset.mem.read a = t.mem.read a)) ∧
  (∀ s : State, s.softReset.softReset = s.softReset) ∧
  (∀ (cfg : BlockConfig) (coreInit : Nat → Word),
    (State.powerOn cfg coreInit).softReset = State.powerOn cfg coreInit)

/-- R132: after a soft reset that follows StepBudgetExceeded the first step faults again. -/
def Obligations.SoftResetDoesNotReloadTheBudget : Prop :=
  ∀ s t : State, s.cfg.wf = true → s.rs = .running → step s = .next t →
    t.record.cause = .stepBudgetExceeded → t.rs = .faulted →
    step t.softReset = .next (faultedWith t.softReset .stepBudgetExceeded 0 0)

/-- R29, R127, R158: the host's write of G, its loader write and its inspect. -/
def Obligations.HostPortEffects : Prop :=
  ∀ (s : State) (x v : Word),
    s.setG v = { s with regs := { s.regs with g := v } } ∧
    (s.cfg.coreSize ≤ x.toNat → s.loaderWrite x v = s ∧ s.inspect x = none ∧ s.inspectInstr x = none) ∧
    (x.toNat < s.cfg.coreSize →
      (∃ t, s.loaderWrite x v = t ∧ t.mem.read x.toNat = v ∧
        (∀ a, a ≠ x.toNat → t.mem.read a = s.mem.read a) ∧ t = { s with mem := t.mem }) ∧
      s.inspect x = some (s.mem.read x.toNat) ∧
      s.inspectInstr x = some (decode (s.mem.read x.toNat)))

/-- R20, R28, R121: the codes on the status outputs, and which fields the outputs show. THE MODEL'S CHOICE
(notes/assumptions/16.md): `snap` shows the registers as they are, also where the host has written G after a dump. -/
def Obligations.StatusOutputCodes : Prop :=
  [RunState.running, .halted, .faulted].map (fun r => r.code.toNat) = [0, 1, 2] ∧
  [Cause.none, .outOfMemory, .pcOutOfRange, .asmSegmentOutOfRange, .indirectAddressOutOfRange,
    .storeAddressOutOfRange, .stepBudgetExceeded, .unknownFunctionCode].map (fun c => c.code.toNat) =
    [0, 1, 2, 3, 4, 5, 6, 7] ∧
  ∀ s : State,
    s.status.rs = s.rs.code ∧ s.status.cause = s.record.cause.code ∧ s.status.fpc = s.record.fpc ∧
    s.status.faddr = s.record.faddr ∧ s.status.ffunc = s.record.ffunc ∧ s.status.snap = s.regs ∧
    (s.status.evDump = true ↔ ∃ r, s.event = some (.dump r)) ∧
    (s.status.evUnimpl = true ↔ s.event = some .unimplemented) ∧
    (s.status.evHalt = true ↔ s.event = some .halt)

/-- R157: the loader places the words one behind the other from its write cursor, or fails where they do not fit. -/
def Obligations.LoaderAppendsAtTheCursor : Prop :=
  ∀ (s : State) (ws : List Word), s.cursor ≤ s.cfg.coreSize →
    (s.cfg.coreSize < s.cursor + ws.length → s.loadWords ws = .error .segmentOutOfRange) ∧
    (s.cursor + ws.length ≤ s.cfg.coreSize →
      ∃ t, s.loadWords ws = .ok t ∧
        (∀ j w, ws[j]? = some w → t.mem.read (s.cursor + j) = w) ∧
        (∀ a, a < s.cursor ∨ s.cursor + ws.length ≤ a → t.mem.read a = s.mem.read a) ∧
        t = { s with mem := t.mem, cursor := s.cursor + ws.length })

/-- R65: the words of one instruction written with its modifier letters, its function letter and a number. -/
def Obligations.AssemblerEmitsOneInstruction : Prop :=
  ∀ (ms : List ModLetter) (func : BitVec 4) (n : Nat), ms.Nodup → n ≤ 0xFFFF →
    (ModLetter.d ∈ ms →
      emit [] (ms.map Token.modifier ++ [.function func, .number n]) =
        .ok [packWord func (lettersMods ms) 0, BitVec.ofNat 16 n]) ∧
    (ModLetter.d ∉ ms → n ≤ 0xFF →
      emit [] (ms.map Token.modifier ++ [.function func, .number n]) =
        .ok [packWord func (lettersMods ms) (BitVec.ofNat 8 n)]) ∧
    (ModLetter.d ∉ ms → 0xFF < n →
      emit [] (ms.map Token.modifier ++ [.function func, .number n]) = .error .offsetTooLarge)
end

