-- ==== Sys2Proof/Laws/State.lean ====
section
/-! SUPPORT. What each update of the state leaves in each field, so that no proof unfolds a record update. -/

namespace Sys2Proof.Machine

@[simp] theorem takeFault_regs (func : BitVec 4) (r : Raise) (s : State) : (takeFault func r s).regs = s.regs := rfl

@[simp] theorem takeFault_mem (func : BitVec 4) (r : Raise) (s : State) : (takeFault func r s).mem = s.mem := rfl

@[simp] theorem takeFault_rs (func : BitVec 4) (r : Raise) (s : State) : (takeFault func r s).rs = .faulted := rfl

@[simp] theorem takeFault_record (func : BitVec 4) (r : Raise) (s : State) :
    (takeFault func r s).record = { cause := r.cause, fpc := s.regs.c, faddr := r.addr.getD s.regs.c, ffunc := func } := rfl

@[simp] theorem takeFault_budget (func : BitVec 4) (r : Raise) (s : State) : (takeFault func r s).budget = s.budget := rfl

@[simp] theorem takeFault_event (func : BitVec 4) (r : Raise) (s : State) : (takeFault func r s).event = none := rfl

@[simp] theorem takeFault_cursor (func : BitVec 4) (r : Raise) (s : State) : (takeFault func r s).cursor = s.cursor := rfl

@[simp] theorem takeFault_cfg (func : BitVec 4) (r : Raise) (s : State) : (takeFault func r s).cfg = s.cfg := rfl

@[simp] theorem softReset_regs (s : State) :
    (s.softReset).regs = { a := 0, b := 0, c := 0, d := 0, p := 0, g := 0 } := rfl

@[simp] theorem softReset_mem (s : State) : (s.softReset).mem = s.mem := rfl

@[simp] theorem softReset_rs (s : State) : (s.softReset).rs = .running := rfl

@[simp] theorem softReset_record (s : State) : (s.softReset).record = FaultRecord.empty := rfl

@[simp] theorem softReset_budget (s : State) : (s.softReset).budget = s.budget := rfl

@[simp] theorem softReset_event (s : State) : (s.softReset).event = none := rfl

@[simp] theorem softReset_cursor (s : State) : (s.softReset).cursor = s.cursor := rfl

@[simp] theorem softReset_cfg (s : State) : (s.softReset).cfg = s.cfg := rfl

@[simp] theorem memWrite_regs (s : State) (x v : Word) : (s.memWrite x v).regs = s.regs := rfl

@[simp] theorem memWrite_mem (s : State) (x v : Word) : (s.memWrite x v).mem = s.mem.write x.toNat v := rfl

@[simp] theorem memWrite_rs (s : State) (x v : Word) : (s.memWrite x v).rs = s.rs := rfl

@[simp] theorem memWrite_record (s : State) (x v : Word) : (s.memWrite x v).record = s.record := rfl

@[simp] theorem memWrite_budget (s : State) (x v : Word) : (s.memWrite x v).budget = s.budget := rfl

@[simp] theorem memWrite_event (s : State) (x v : Word) : (s.memWrite x v).event = s.event := rfl

@[simp] theorem memWrite_cursor (s : State) (x v : Word) : (s.memWrite x v).cursor = s.cursor := rfl

@[simp] theorem memWrite_cfg (s : State) (x v : Word) : (s.memWrite x v).cfg = s.cfg := rfl

@[simp] theorem resolved_regs (s : State) (r : Resolved) :
    (s.resolved r).regs = { s.regs with c := r.pc, d := r.ea } := rfl

@[simp] theorem resolved_mem (s : State) (r : Resolved) : (s.resolved r).mem = s.mem := rfl

@[simp] theorem resolved_rs (s : State) (r : Resolved) : (s.resolved r).rs = s.rs := rfl

@[simp] theorem resolved_record (s : State) (r : Resolved) : (s.resolved r).record = s.record := rfl

@[simp] theorem resolved_budget (s : State) (r : Resolved) : (s.resolved r).budget = s.budget := rfl

@[simp] theorem resolved_event (s : State) (r : Resolved) : (s.resolved r).event = none := rfl

@[simp] theorem resolved_cursor (s : State) (r : Resolved) : (s.resolved r).cursor = s.cursor := rfl

@[simp] theorem resolved_cfg (s : State) (r : Resolved) : (s.resolved r).cfg = s.cfg := rfl

@[simp] theorem complete_regs (s : State) : (complete s).regs = s.regs := rfl

@[simp] theorem complete_mem (s : State) : (complete s).mem = s.mem := rfl

@[simp] theorem complete_rs (s : State) : (complete s).rs = s.rs := rfl

@[simp] theorem complete_record (s : State) : (complete s).record = s.record := rfl

@[simp] theorem complete_budget (s : State) : (complete s).budget = spendBudget s := rfl

@[simp] theorem complete_event (s : State) : (complete s).event = s.event := rfl

@[simp] theorem complete_cursor (s : State) : (complete s).cursor = s.cursor := rfl

@[simp] theorem complete_cfg (s : State) : (complete s).cfg = s.cfg := rfl

@[simp] theorem idle_regs (s : State) : (idle s).regs = s.regs := rfl

@[simp] theorem idle_mem (s : State) : (idle s).mem = s.mem := rfl

@[simp] theorem idle_rs (s : State) : (idle s).rs = s.rs := rfl

@[simp] theorem idle_record (s : State) : (idle s).record = s.record := rfl

@[simp] theorem idle_budget (s : State) : (idle s).budget = s.budget := rfl

@[simp] theorem idle_event (s : State) : (idle s).event = none := rfl

@[simp] theorem idle_cursor (s : State) : (idle s).cursor = s.cursor := rfl

@[simp] theorem idle_cfg (s : State) : (idle s).cfg = s.cfg := rfl

@[simp] theorem setG_regs (s : State) (v : Word) : (s.setG v).regs = { s.regs with g := v } := rfl

@[simp] theorem setG_mem (s : State) (v : Word) : (s.setG v).mem = s.mem := rfl

@[simp] theorem setG_rs (s : State) (v : Word) : (s.setG v).rs = s.rs := rfl

@[simp] theorem setG_record (s : State) (v : Word) : (s.setG v).record = s.record := rfl

@[simp] theorem setG_budget (s : State) (v : Word) : (s.setG v).budget = s.budget := rfl

@[simp] theorem setG_event (s : State) (v : Word) : (s.setG v).event = s.event := rfl

@[simp] theorem setG_cursor (s : State) (v : Word) : (s.setG v).cursor = s.cursor := rfl

@[simp] theorem setG_cfg (s : State) (v : Word) : (s.setG v).cfg = s.cfg := rfl

@[simp] theorem jumpToD_regs (s : State) : (jumpToD s).regs = { s.regs with c := s.regs.d } := rfl

@[simp] theorem jumpToD_mem (s : State) : (jumpToD s).mem = s.mem := rfl

@[simp] theorem jumpToD_rs (s : State) : (jumpToD s).rs = s.rs := rfl

@[simp] theorem jumpToD_record (s : State) : (jumpToD s).record = s.record := rfl

@[simp] theorem jumpToD_budget (s : State) : (jumpToD s).budget = s.budget := rfl

@[simp] theorem jumpToD_event (s : State) : (jumpToD s).event = s.event := rfl

@[simp] theorem jumpToD_cursor (s : State) : (jumpToD s).cursor = s.cursor := rfl

@[simp] theorem jumpToD_cfg (s : State) : (jumpToD s).cfg = s.cfg := rfl

@[simp] theorem pushFrame_regs (s : State) (fa : Word) : (pushFrame s fa).regs = s.regs := rfl

@[simp] theorem pushFrame_mem (s : State) (fa : Word) :
    (pushFrame s fa).mem = (s.mem.write fa.toNat s.regs.p).write (fa + 1).toNat s.regs.c := rfl

@[simp] theorem pushFrame_rs (s : State) (fa : Word) : (pushFrame s fa).rs = s.rs := rfl

@[simp] theorem pushFrame_record (s : State) (fa : Word) : (pushFrame s fa).record = s.record := rfl

@[simp] theorem pushFrame_budget (s : State) (fa : Word) : (pushFrame s fa).budget = s.budget := rfl

@[simp] theorem pushFrame_event (s : State) (fa : Word) : (pushFrame s fa).event = s.event := rfl

@[simp] theorem pushFrame_cursor (s : State) (fa : Word) : (pushFrame s fa).cursor = s.cursor := rfl

@[simp] theorem pushFrame_cfg (s : State) (fa : Word) : (pushFrame s fa).cfg = s.cfg := rfl

end Sys2Proof.Machine
end

