-- ==== Sys2Proof/Laws/Cycle.lean ====
section
/-! SUPPORT. What the shared operations of a step can do, each said once: the bounds checker, the resolution, `perform`,
the entry checks, and `step`. -/

namespace Sys2Proof.Machine

open Sys2Proof.Safety

theorem inCore_iff (s : State) (x : Word) : s.inCore x = true ↔ x.toNat < s.cfg.coreSize := by
  simp [State.inCore]

theorem inCore_false_iff (s : State) (x : Word) : s.inCore x = false ↔ s.cfg.coreSize ≤ x.toNat := by
  simp [State.inCore]

theorem frameInCore_iff (s : State) (fa : Word) : frameInCore s fa = true ↔ fa.toNat + 1 < s.cfg.coreSize :=
  decide_eq_true_iff

theorem frameInCore_false_iff (s : State) (fa : Word) : frameInCore s fa = false ↔ s.cfg.coreSize ≤ fa.toNat + 1 := by
  rw [← Bool.not_eq_true, frameInCore_iff, Nat.not_lt]

theorem cfg_wf_iff (cfg : BlockConfig) : cfg.wf = true ↔ 1 ≤ cfg.coreSize ∧ cfg.coreSize ≤ 65536 :=
  decide_eq_true_iff

/-- In a constructed block the cell behind a frame that fits is at the next address, without wrapping. -/
theorem toNat_succ_of_lt {s : State} {fa : Word} (hw : s.cfg.wf = true) (h : fa.toNat + 1 < s.cfg.coreSize) :
    (fa + 1).toNat = fa.toNat + 1 := by
  have := ((cfg_wf_iff _).mp hw).2
  rw [BitVec.toNat_add, show (1 : Word).toNat = 1 from rfl]
  omega

/-- R77: the advanced program counter is past the instruction and its literal. -/
theorem advancedPc_eq_nextInstr (mods : Modifiers) (s : State) : advancedPc mods s = nextInstr mods s := by
  unfold advancedPc nextInstr postFetchPc
  cases mods.db
  · rfl
  · simp only [if_true]
    rw [BitVec.add_assoc]
    rfl

/-- R77 to R79: the three sums of the first three stages. -/
theorem pointerAddress_eq (mods : Modifiers) (off : BitVec 8) (s : State) :
    pointerAddress mods off s =
      (if mods.db then s.mem.read (s.regs.c + 1).toNat else s.regs.c + 1 + off.setWidth 16)
        + (if mods.pb then s.regs.p else 0) + (if mods.gb then s.regs.g else 0) := by
  obtain ⟨db, pb, gb, ib⟩ := mods
  cases db <;> cases pb <;> cases gb <;>
    simp [pointerAddress, baseAddress, addFrame, addGlobal, State.memRead, postFetchPc, zext16]

theorem spendBudget_eq_budgetAfter (s : State) : spendBudget s = budgetAfter s := rfl

/-- The two bounds checks pass exactly when the operand is resolvable. -/
theorem resolve_of_resolvable {mods : Modifiers} {off : BitVec 8} {s : State} (h : Resolvable mods off s) :
    resolve mods off s = .ok { pc := advancedPc mods s, ea := effectiveAddress mods off s } := by
  obtain ⟨hd, hi⟩ := h
  unfold resolve
  rw [if_neg, if_neg]
  · cases hib : mods.ib
    · simp
    · simp [(inCore_iff s _).mpr (hi hib)]
  · cases hdb : mods.db
    · simp
    · simp [(inCore_iff s (postFetchPc s)).mpr (hd hdb)]

/-- Everything the resolution can do: the literal's fault, the pointer's fault, or the resolved address. -/
theorem resolve_cases (mods : Modifiers) (off : BitVec 8) (s : State) :
    (mods.db = true ∧ s.inCore (postFetchPc s) = false ∧
      resolve mods off s = .error { cause := .pcOutOfRange, addr := some (postFetchPc s) }) ∨
    ((mods.db = true → s.inCore (postFetchPc s) = true) ∧ mods.ib = true ∧
      s.inCore (pointerAddress mods off s) = false ∧
      resolve mods off s = .error { cause := .indirectAddressOutOfRange, addr := some (pointerAddress mods off s) }) ∨
    (Resolvable mods off s ∧
      resolve mods off s = .ok { pc := advancedPc mods s, ea := effectiveAddress mods off s }) := by
  by_cases h1 : mods.db = true ∧ s.inCore (postFetchPc s) = false
  · exact .inl ⟨h1.1, h1.2, by simp [resolve, h1.1, h1.2]⟩
  · have hd : mods.db = true → s.inCore (postFetchPc s) = true := by
      intro hdb
      cases hc : s.inCore (postFetchPc s)
      · exact absurd ⟨hdb, hc⟩ h1
      · rfl
    have hn : ¬ (mods.db && !s.inCore (postFetchPc s)) = true := by
      cases hdb : mods.db
      · simp
      · simp [hd hdb]
    by_cases h2 : mods.ib = true ∧ s.inCore (pointerAddress mods off s) = false
    · exact .inr (.inl ⟨hd, h2.1, h2.2, by simp only [resolve, if_neg hn]; simp [h2.1, h2.2]⟩)
    · have hr : Resolvable mods off s := by
        refine ⟨fun hdb => (inCore_iff _ _).mp (hd hdb), fun hib => (inCore_iff _ _).mp ?_⟩
        cases hc : s.inCore (pointerAddress mods off s)
        · exact absurd ⟨hib, hc⟩ h2
        · rfl
      exact .inr (.inr ⟨hr, resolve_of_resolvable hr⟩)

/-- `perform` where the operand resolves and the arm goes through. -/
theorem perform_of_ok {func : BitVec 4} {mods : Modifiers} {off : BitVec 8} {arm : State → Except Raise State}
    {s t : State} (h : Resolvable mods off s)
    (ha : arm (s.resolved { pc := advancedPc mods s, ea := effectiveAddress mods off s }) = .ok t) :
    perform func mods off arm s = .next (complete t) := by
  simp [perform, resolve_of_resolvable h, ha]

/-- `perform` where the operand resolves and the arm raises. -/
theorem perform_of_raise {func : BitVec 4} {mods : Modifiers} {off : BitVec 8} {arm : State → Except Raise State}
    {s : State} {r : Raise} (h : Resolvable mods off s)
    (ha : arm (s.resolved { pc := advancedPc mods s, ea := effectiveAddress mods off s }) = .error r) :
    perform func mods off arm s = .next (takeFault func r s) := by
  simp [perform, resolve_of_resolvable h, ha]

/-- Everything `perform` can do: always a next state, which is the fault entry of a raise of the resolution or of the
arm, or the completion of what the arm leaves. -/
theorem perform_cases (func : BitVec 4) (mods : Modifiers) (off : BitVec 8) (arm : State → Except Raise State)
    (s : State) :
    (∃ r, resolve mods off s = .error r ∧ perform func mods off arm s = .next (takeFault func r s)) ∨
    (∃ r, Resolvable mods off s ∧
      arm (s.resolved { pc := advancedPc mods s, ea := effectiveAddress mods off s }) = .error r ∧
      perform func mods off arm s = .next (takeFault func r s)) ∨
    (∃ t, Resolvable mods off s ∧
      arm (s.resolved { pc := advancedPc mods s, ea := effectiveAddress mods off s }) = .ok t ∧
      perform func mods off arm s = .next (complete t)) := by
  rcases resolve_cases mods off s with ⟨_, _, h⟩ | ⟨_, _, _, h⟩ | ⟨hr, h⟩
  · exact .inl ⟨_, h, by simp [perform, h]⟩
  · exact .inl ⟨_, h, by simp [perform, h]⟩
  · cases ha : arm (s.resolved { pc := advancedPc mods s, ea := effectiveAddress mods off s }) with
    | error r => exact .inr (.inl ⟨r, hr, rfl, perform_of_raise hr ha⟩)
    | ok t => exact .inr (.inr ⟨t, hr, rfl, perform_of_ok hr ha⟩)

/-- The dispatch arm of each instruction. -/
def armOf : Instr → State → Except Raise State
  | .load _ _ => loadArm
  | .add _ _ => addArm
  | .store _ _ => storeArm
  | .call _ _ => callArm
  | .jmp _ _ => jmpArm
  | .jmpt _ _ => jmptArm
  | .jmpf _ _ => jmpfArm
  | .dump _ _ => dumpArm
  | .exop _ _ => exopArm
  | .halt _ _ => haltArm
  | .unknown10to11 _ _ _ => unknownArm
  | .unknown12to15 _ _ _ => unknownArm

/-- Every instruction is performed with its own fields and its own arm. -/
theorem exec_eq_perform (i : Instr) (s : State) : exec i s = perform i.func i.mods i.off (armOf i) s := by
  cases i <;> rfl

/-- An instruction whose operand resolves and whose arm goes through completes. -/
theorem exec_of_ok (i : Instr) {s t : State} (h : Resolvable i.mods i.off s)
    (ha : armOf i (s.resolved { pc := advancedPc i.mods s, ea := effectiveAddress i.mods i.off s }) = .ok t) :
    exec i s = .next (complete t) :=
  (exec_eq_perform i s).trans (perform_of_ok h ha)

/-- An instruction whose operand resolves and whose arm raises takes that fault. -/
theorem exec_of_raise (i : Instr) {s : State} {r : Raise} (h : Resolvable i.mods i.off s)
    (ha : armOf i (s.resolved { pc := advancedPc i.mods s, ea := effectiveAddress i.mods i.off s }) = .error r) :
    exec i s = .next (takeFault i.func r s) :=
  (exec_eq_perform i s).trans (perform_of_raise h ha)

/-- What an arm raises: `store` and `call` their bounds fault, the unknown codes theirs; no other arm raises. -/
theorem armOf_error {i : Instr} {s : State} {r : Raise} (h : armOf i s = .error r) :
    (i.func = 2 ∧ r = { cause := .storeAddressOutOfRange, addr := some s.regs.d } ∧ s.inCore s.regs.d = false) ∨
    (i.func = 3 ∧ r = { cause := .storeAddressOutOfRange, addr := some (s.regs.d + s.regs.p) } ∧
      frameInCore s (s.regs.d + s.regs.p) = false) ∨
    (r = { cause := .unknownFunctionCode, addr := none } ∧
      ((∃ f m o, i = .unknown10to11 f m o) ∨ (∃ f m o, i = .unknown12to15 f m o))) := by
  cases i <;>
    simp only [armOf, loadArm, addArm, jmpArm, jmptArm, jmpfArm, dumpArm, exopArm, haltArm, reduceCtorEq] at h
  case store =>
    unfold storeArm at h
    split at h
    · cases h
    · next hh => cases h; exact .inl ⟨rfl, rfl, by simpa using hh⟩
  case call =>
    unfold callArm at h
    simp only at h
    split at h
    · cases h
    · next hh => cases h; exact .inr (.inl ⟨rfl, rfl, by simpa [frameAddress] using hh⟩)
  case unknown10to11 => cases h; exact .inr (.inr ⟨rfl, .inl ⟨_, _, _, rfl⟩⟩)
  case unknown12to15 => cases h; exact .inr (.inr ⟨rfl, .inr ⟨_, _, _, rfl⟩⟩)

/-- What an arm that goes through does to the state: the fields no arm touches, and which function writes which of the
others. -/
structure ArmFrame (i : Instr) (s t : State) : Prop where
  g : t.regs.g = s.regs.g
  cursor : t.cursor = s.cursor
  cfg : t.cfg = s.cfg
  record : t.record = s.record
  budget : t.budget = s.budget
  rs : t.rs = s.rs ∨ (t.rs = .halted ∧ i.func = 9 ∧ t.event = some .halt)
  d : t.regs.d = s.regs.d + (if i.func = 3 then s.regs.p else 0)
  a : t.regs.a ≠ s.regs.a → i.func = 0 ∨ i.func = 1
  b : t.regs.b ≠ s.regs.b → i.func = 0
  p : t.regs.p ≠ s.regs.p → i.func = 3
  mem : t.mem = s.mem ∨
    (i.func = 2 ∧ s.inCore s.regs.d = true ∧ t.mem = s.mem.write s.regs.d.toNat s.regs.a) ∨
    (i.func = 3 ∧ frameInCore s (s.regs.d + s.regs.p) = true ∧
      t.mem = (s.mem.write (s.regs.d + s.regs.p).toNat s.regs.p).write (s.regs.d + s.regs.p + 1).toNat s.regs.c)
  c : i.func ≠ 3 → i.func ≠ 4 → (i.func = 5 → s.regs.a = 0) → (i.func = 6 → s.regs.a ≠ 0) → t.regs.c = s.regs.c

theorem armOf_ok {i : Instr} {s t : State} (h : armOf i s = .ok t) : ArmFrame i s t := by
  cases i <;>
    simp only [armOf, loadArm, addArm, jmpArm, jmptArm, jmpfArm, dumpArm, exopArm, haltArm, unknownArm, reduceCtorEq,
      Except.ok.injEq] at h
  case store =>
    unfold storeArm at h
    split at h
    · next hh => cases h; constructor <;> simp [Instr.func, hh]
    · cases h
  case call =>
    unfold callArm at h
    simp only at h
    split at h
    · next hh =>
      cases h
      constructor <;> simp [Instr.func, frameAddress]
      exact .inr hh
    · cases h
  case jmpt =>
    subst h
    cases hz : accNonzero s <;> constructor <;> simp [Instr.func]
    exact fun ha => absurd ha (by simpa [accNonzero] using hz)
  case jmpf =>
    subst h
    cases hz : accZero s <;> constructor <;> simp [Instr.func]
    exact fun ha => absurd (by simpa [accZero] using hz) ha
  all_goals subst h; constructor <;> simp [Instr.func]

/-- Everything an instruction can do: the fault entry of its resolution, the fault entry of its arm, or the completion
of what its arm leaves. -/
theorem exec_cases {i : Instr} {s t : State} (h : exec i s = .next t) :
    (∃ r, resolve i.mods i.off s = .error r ∧ t = takeFault i.func r s) ∨
    (∃ r, Resolvable i.mods i.off s ∧
      armOf i (s.resolved { pc := advancedPc i.mods s, ea := effectiveAddress i.mods i.off s }) = .error r ∧
      t = takeFault i.func r s) ∨
    (∃ u, Resolvable i.mods i.off s ∧
      armOf i (s.resolved { pc := advancedPc i.mods s, ea := effectiveAddress i.mods i.off s }) = .ok u ∧
      t = complete u) := by
  rw [exec_eq_perform] at h
  rcases perform_cases i.func i.mods i.off (armOf i) s with ⟨r, hr, h'⟩ | ⟨r, hr, ha, h'⟩ | ⟨u, hr, ha, h'⟩
  · rw [h'] at h; cases h; exact .inl ⟨r, hr, rfl⟩
  · rw [h'] at h; cases h; exact .inr (.inl ⟨r, hr, ha, rfl⟩)
  · rw [h'] at h; cases h; exact .inr (.inr ⟨u, hr, ha, rfl⟩)

/-- The entry checks pass exactly when the program counter is in range and the budget, if enforced, is not spent. -/
theorem entryCheck_ok {s : State} (hc : s.regs.c.toNat < s.cfg.coreSize)
    (hb : s.cfg.debug = true → s.budget ≠ 0) : entryCheck s = .ok () := by
  unfold entryCheck
  rw [if_neg (by simp [(inCore_iff s s.regs.c).mpr hc]), if_neg]
  cases hd : s.cfg.debug
  · simp
  · simpa using hb hd

/-- Everything the entry checks can do. -/
theorem entryCheck_cases (s : State) :
    (s.inCore s.regs.c = false ∧ entryCheck s = .error { cause := .pcOutOfRange, addr := some s.regs.c }) ∨
    (s.inCore s.regs.c = true ∧ s.cfg.debug = true ∧ s.budget = 0 ∧
      entryCheck s = .error { cause := .stepBudgetExceeded, addr := none }) ∨
    (s.inCore s.regs.c = true ∧ (s.cfg.debug = true → s.budget ≠ 0) ∧ entryCheck s = .ok ()) := by
  cases hc : s.inCore s.regs.c
  · exact .inl ⟨rfl, by simp [entryCheck, hc]⟩
  · by_cases hb : s.cfg.debug = true ∧ s.budget = 0
    · exact .inr (.inl ⟨rfl, hb.1, hb.2, by simp [entryCheck, hc, hb.1, hb.2]⟩)
    · have hb' : s.cfg.debug = true → s.budget ≠ 0 := fun hd hz => hb ⟨hd, hz⟩
      exact .inr (.inr ⟨rfl, hb', entryCheck_ok ((inCore_iff _ _).mp hc) hb'⟩)

/-- Everything a step request can do in a constructed block. -/
theorem step_cases {s : State} (hw : s.cfg.wf = true) :
    (s.rs ≠ .running ∧ step s = .next (idle s)) ∨
    (∃ r, s.rs = .running ∧ entryCheck s = .error r ∧ step s = .next (takeFault 0 r s)) ∨
    (s.rs = .running ∧ entryCheck s = .ok () ∧ step s = exec (decode (s.memRead s.regs.c)) s) := by
  by_cases hr : s.rs = .running
  · cases he : entryCheck s with
    | error r => exact .inr (.inl ⟨r, hr, rfl, by simp [step, hw, hr, fetchInstr, he]⟩)
    | ok u => exact .inr (.inr ⟨hr, rfl, by simp [step, hw, hr, fetchInstr, he]⟩)
  · exact .inl ⟨hr, by simp [step, hw, hr]⟩

end Sys2Proof.Machine
end

