-- ==== Sys2Proof/Laws/Decode.lean ====
section
/-! SUPPORT. The fields of a packed word are the fields it was packed from, and a word is packed from its fields
(spec/30_encoding.md R50, R51). -/

namespace Sys2Proof

/-- Bit `j` of a packed word, from the least significant field upward. -/
theorem getLsbD_packWord (func : BitVec 4) (mods : Modifiers) (off : BitVec 8) (j : Nat) :
    (packWord func mods off).getLsbD j =
      if j < 8 then off.getLsbD j
      else if j < 9 then (BitVec.ofBool mods.ib).getLsbD (j - 8)
      else if j < 10 then (BitVec.ofBool mods.gb).getLsbD (j - 9)
      else if j < 11 then (BitVec.ofBool mods.pb).getLsbD (j - 10)
      else if j < 12 then (BitVec.ofBool mods.db).getLsbD (j - 11)
      else func.getLsbD (j - 12) := by
  unfold packWord
  rw [BitVec.getLsbD_cast, BitVec.getLsbD_append, BitVec.getLsbD_append, BitVec.getLsbD_append,
    BitVec.getLsbD_append, BitVec.getLsbD_append]
  split_ifs <;> first | rfl | omega

theorem wordFunc_packWord (func : BitVec 4) (mods : Modifiers) (off : BitVec 8) :
    wordFunc (packWord func mods off) = func := by
  apply BitVec.eq_of_getLsbD_eq
  intro j hj
  have h : ∀ n, n ≤ 12 → ¬ 12 + j < n := fun n hn => by omega
  simp [wordFunc, getLsbD_packWord, hj, h, -BitVec.getLsbD_eq_getElem]

theorem wordOff_packWord (func : BitVec 4) (mods : Modifiers) (off : BitVec 8) :
    wordOff (packWord func mods off) = off := by
  apply BitVec.eq_of_getLsbD_eq
  intro j hj
  simp [wordOff, getLsbD_packWord, hj, -BitVec.getLsbD_eq_getElem]

theorem wordMods_packWord (func : BitVec 4) (mods : Modifiers) (off : BitVec 8) :
    wordMods (packWord func mods off) = mods := by
  simp [wordMods, getLsbD_packWord, -BitVec.getLsbD_eq_getElem]

/-- A decoded instruction has the fields sliced from the word, and is well-formed. -/
theorem decode_fields (w : Word) :
    (decode w).func = wordFunc w ∧ (decode w).mods = wordMods w ∧ (decode w).off = wordOff w ∧
      (decode w).wf = true := by
  have key : ∀ n : BitVec 4, (wordFunc w).toNat = n.toNat → n = wordFunc w :=
    fun n h => (BitVec.eq_of_toNat_eq h).symm
  unfold decode
  split
  · next h => exact ⟨key 0 h, rfl, rfl, rfl⟩
  · next h => exact ⟨key 1 h, rfl, rfl, rfl⟩
  · next h => exact ⟨key 2 h, rfl, rfl, rfl⟩
  · next h => exact ⟨key 3 h, rfl, rfl, rfl⟩
  · next h => exact ⟨key 4 h, rfl, rfl, rfl⟩
  · next h => exact ⟨key 5 h, rfl, rfl, rfl⟩
  · next h => exact ⟨key 6 h, rfl, rfl, rfl⟩
  · next h => exact ⟨key 7 h, rfl, rfl, rfl⟩
  · next h => exact ⟨key 8 h, rfl, rfl, rfl⟩
  · next h => exact ⟨key 9 h, rfl, rfl, rfl⟩
  · next h => exact ⟨rfl, rfl, rfl, by simp [Instr.wf, h]⟩
  · next h => exact ⟨rfl, rfl, rfl, by simp [Instr.wf, h]⟩
  · next h0 h1 h2 h3 h4 h5 h6 h7 h8 h9 h10 h11 =>
    refine ⟨rfl, rfl, rfl, ?_⟩
    simp only [Instr.wf, decide_eq_true_eq]
    by_contra hc
    generalize (wordFunc w).toNat = n at *
    interval_cases n <;> simp_all

end Sys2Proof
end

