-- ==== Sys2Proof/Laws/Memory.lean ====
section
/-! SUPPORT. The laws of Core Memory (spec/20_memory.md R35): reading behind a write, the canonical form, and the memory
of a function's values. -/

namespace Sys2Proof.Machine

theorem lookupCell_eraseCell_same (cells : List (Nat × Word)) (a : Nat) :
    lookupCell (eraseCell cells a) a = unlistedWord := by
  induction cells with
  | nil => rfl
  | cons cell rest ih =>
    obtain ⟨k, v⟩ := cell
    by_cases h : k = a <;> simp [eraseCell, lookupCell, h, ih]

theorem lookupCell_eraseCell_other (cells : List (Nat × Word)) {a b : Nat} (h : b ≠ a) :
    lookupCell (eraseCell cells a) b = lookupCell cells b := by
  induction cells with
  | nil => rfl
  | cons cell rest ih =>
    obtain ⟨k, v⟩ := cell
    by_cases hk : k = a
    · subst hk; simp [eraseCell, lookupCell, ih, Ne.symm h]
    · simp [eraseCell, lookupCell, hk, ih]

theorem lookupCell_insertCell_other (cells : List (Nat × Word)) {a b : Nat} (v : Word) (h : b ≠ a) :
    lookupCell (insertCell cells a v) b = lookupCell cells b := by
  induction cells with
  | nil => simp [insertCell, lookupCell, Ne.symm h]
  | cons cell rest ih =>
    obtain ⟨k, x⟩ := cell
    by_cases hk : a < k
    · simp [insertCell, lookupCell, hk, Ne.symm h]
    · simp [insertCell, lookupCell, hk, ih]

/-- An address that is not listed is found where it is inserted. -/
theorem lookupCell_insertCell_eraseCell (cells : List (Nat × Word)) (a : Nat) (v : Word) :
    lookupCell (insertCell (eraseCell cells a) a v) a = v := by
  induction cells with
  | nil => simp [eraseCell, insertCell, lookupCell]
  | cons cell rest ih =>
    obtain ⟨k, x⟩ := cell
    by_cases hk : k = a
    · simpa [eraseCell, hk] using ih
    · by_cases hlt : a < k
      · simp [eraseCell, insertCell, lookupCell, hk, hlt]
      · simp [eraseCell, insertCell, lookupCell, hk, hlt, ih]

/-- R35: a cell just written reads as the word written. -/
@[simp] theorem Memory.read_write_same (m : Memory) (a : Nat) (v : Word) : (m.write a v).read a = v := by
  unfold Memory.write Memory.read
  split
  · next h => rw [h]; exact lookupCell_eraseCell_same _ _
  · exact lookupCell_insertCell_eraseCell _ _ _

/-- R35: "a write has no effect beyond its cell". -/
theorem Memory.read_write_other (m : Memory) {a b : Nat} (v : Word) (h : b ≠ a) :
    (m.write a v).read b = m.read b := by
  unfold Memory.write Memory.read
  split
  · exact lookupCell_eraseCell_other _ h
  · rw [lookupCell_insertCell_other _ _ h, lookupCell_eraseCell_other _ h]

theorem cellsAbove_cons (lo k : Nat) (v : Word) (rest : List (Nat × Word)) :
    cellsAbove lo ((k, v) :: rest) = true ↔ lo < k ∧ cellsAbove lo rest = true := by
  simp [cellsAbove]

theorem cellsWf_cons (k : Nat) (v : Word) (rest : List (Nat × Word)) :
    cellsWf ((k, v) :: rest) = true ↔ v ≠ unlistedWord ∧ cellsAbove k rest = true ∧ cellsWf rest = true := by
  simp [cellsWf, and_assoc]

theorem cellsAbove_mono {lo lo' : Nat} {cells : List (Nat × Word)} (h : lo' ≤ lo)
    (hc : cellsAbove lo cells = true) : cellsAbove lo' cells = true := by
  simp only [cellsAbove, List.all_eq_true, decide_eq_true_eq] at *
  intro x hx
  exact Nat.lt_of_le_of_lt h (hc x hx)

theorem cellsAbove_eraseCell {lo : Nat} {cells : List (Nat × Word)} (a : Nat) (h : cellsAbove lo cells = true) :
    cellsAbove lo (eraseCell cells a) = true := by
  induction cells with
  | nil => rfl
  | cons cell rest ih =>
    obtain ⟨k, v⟩ := cell
    obtain ⟨hk, hr⟩ := (cellsAbove_cons lo k v rest).mp h
    by_cases hka : k = a
    · simpa [eraseCell, hka] using ih hr
    · simpa [eraseCell, hka, cellsAbove_cons, hk] using ih hr

theorem cellsWf_eraseCell {cells : List (Nat × Word)} (a : Nat) (h : cellsWf cells = true) :
    cellsWf (eraseCell cells a) = true := by
  induction cells with
  | nil => rfl
  | cons cell rest ih =>
    obtain ⟨k, v⟩ := cell
    obtain ⟨hv, hk, hr⟩ := (cellsWf_cons k v rest).mp h
    by_cases hka : k = a
    · simpa [eraseCell, hka] using ih hr
    · simp only [eraseCell, hka, if_false, cellsWf_cons]
      exact ⟨hv, cellsAbove_eraseCell a hk, ih hr⟩

theorem cellsAbove_insertCell {lo a : Nat} {v : Word} {cells : List (Nat × Word)} (ha : lo < a)
    (h : cellsAbove lo cells = true) : cellsAbove lo (insertCell cells a v) = true := by
  induction cells with
  | nil => simp [insertCell, cellsAbove, ha]
  | cons cell rest ih =>
    obtain ⟨k, x⟩ := cell
    obtain ⟨hk, hr⟩ := (cellsAbove_cons lo k x rest).mp h
    by_cases hlt : a < k
    · simp only [insertCell, hlt, if_true, cellsAbove_cons]
      exact ⟨ha, hk, hr⟩
    · simp only [insertCell, hlt, if_false, cellsAbove_cons]
      exact ⟨hk, ih hr⟩

/-- Inserting at an address that is not listed keeps the canonical form. -/
theorem cellsWf_insertCell_eraseCell {a : Nat} {v : Word} {cells : List (Nat × Word)} (hv : v ≠ unlistedWord)
    (h : cellsWf cells = true) : cellsWf (insertCell (eraseCell cells a) a v) = true := by
  induction cells with
  | nil => simp [eraseCell, insertCell, cellsWf, cellsAbove, hv]
  | cons cell rest ih =>
    obtain ⟨k, x⟩ := cell
    obtain ⟨hx, hk, hr⟩ := (cellsWf_cons k x rest).mp h
    by_cases hka : k = a
    · simpa [eraseCell, hka] using ih hr
    · by_cases hlt : a < k
      · simp only [eraseCell, hka, if_false, insertCell, hlt, if_true, cellsWf_cons, cellsAbove_cons]
        exact ⟨hv, ⟨trivial, cellsAbove_mono hlt.le (cellsAbove_eraseCell a hk)⟩, hx, cellsAbove_eraseCell a hk,
          cellsWf_eraseCell a hr⟩
      · simp only [eraseCell, hka, if_false, insertCell, hlt, cellsWf_cons]
        exact ⟨hx, cellsAbove_insertCell (by omega) (cellsAbove_eraseCell a hk), ih hr⟩

/-- Every write keeps the canonical form. -/
theorem Memory.write_wf {m : Memory} (a : Nat) (v : Word) (h : m.wf = true) : (m.write a v).wf = true := by
  unfold Memory.write
  split
  · exact cellsWf_eraseCell a h
  · next hv => exact cellsWf_insertCell_eraseCell hv h

theorem mem_eraseCell {cells : List (Nat × Word)} {a : Nat} {x : Nat × Word} (h : x ∈ eraseCell cells a) :
    x ∈ cells := by
  induction cells with
  | nil => exact h
  | cons cell rest ih =>
    obtain ⟨k, v⟩ := cell
    by_cases hka : k = a
    · simp only [eraseCell, hka, if_true] at h
      exact List.mem_cons_of_mem _ (ih h)
    · simp only [eraseCell, hka, if_false, List.mem_cons] at h
      exact h.elim (fun e => e ▸ List.mem_cons_self) (fun e => List.mem_cons_of_mem _ (ih e))

theorem mem_insertCell {cells : List (Nat × Word)} {a : Nat} {v : Word} {x : Nat × Word}
    (h : x ∈ insertCell cells a v) : x = (a, v) ∨ x ∈ cells := by
  induction cells with
  | nil => simpa [insertCell] using h
  | cons cell rest ih =>
    obtain ⟨k, y⟩ := cell
    by_cases hlt : a < k
    · simpa [insertCell, hlt] using h
    · simp only [insertCell, hlt, if_false, List.mem_cons] at h ⊢
      rcases h with h | h
      · exact .inr (.inl h)
      · exact (ih h).imp_right .inr

/-- A write below `n` lists nothing at or above `n`. -/
theorem Memory.write_below {m : Memory} {n a : Nat} (v : Word) (ha : a < n) (h : m.below n = true) :
    (m.write a v).below n = true := by
  simp only [Memory.below, List.all_eq_true, decide_eq_true_eq] at *
  unfold Memory.write
  split
  · exact fun x hx => h x (mem_eraseCell hx)
  · intro x hx
    rcases mem_insertCell hx with rfl | hx
    · exact ha
    · exact h x (mem_eraseCell hx)

theorem lookupCell_filterMap (f : Nat → Word) (l : List Nat) (a : Nat) :
    lookupCell (l.filterMap (fun b => if f b = unlistedWord then none else some (b, f b))) a
      = if a ∈ l then f a else unlistedWord := by
  induction l with
  | nil => simp [lookupCell]
  | cons b rest ih =>
    by_cases hb : f b = unlistedWord
    · rw [List.filterMap_cons_none (by simp [hb]), ih]
      by_cases hab : a = b
      · subst hab; simp [hb]
      · simp [hab]
    · rw [List.filterMap_cons_some (b := (b, f b)) (by simp [hb])]
      by_cases hab : a = b
      · subst hab; simp [lookupCell]
      · simp [lookupCell, ih, hab, Ne.symm hab]

/-- R39: below `n`, the memory of a function holds the function's values; at and above `n` it lists nothing. -/
theorem Memory.read_ofFn (n : Nat) (f : Nat → Word) (a : Nat) :
    (Memory.ofFn n f).read a = if a < n then f a else unlistedWord := by
  simp [Memory.ofFn, Memory.read, lookupCell_filterMap]

theorem cellsWf_filterMap (f : Nat → Word) (l : List Nat) (h : l.Pairwise (· < ·)) :
    cellsWf (l.filterMap (fun b => if f b = unlistedWord then none else some (b, f b))) = true := by
  induction l with
  | nil => rfl
  | cons b rest ih =>
    obtain ⟨hb, hr⟩ := List.pairwise_cons.mp h
    by_cases hf : f b = unlistedWord
    · rw [List.filterMap_cons_none (by simp [hf])]; exact ih hr
    · rw [List.filterMap_cons_some (b := (b, f b)) (by simp [hf]), cellsWf_cons]
      refine ⟨hf, ?_, ih hr⟩
      simp only [cellsAbove, List.all_eq_true, decide_eq_true_eq, List.mem_filterMap]
      rintro x ⟨a, ha, hx⟩
      split at hx
      · cases hx
      · cases hx; exact hb a ha

/-- The memory of a function is in canonical form. -/
theorem Memory.ofFn_wf (n : Nat) (f : Nat → Word) : (Memory.ofFn n f).wf = true :=
  cellsWf_filterMap f _ List.pairwise_lt_range

/-- The memory of a function of `n` cells lists nothing at or above `n`. -/
theorem Memory.ofFn_below (n : Nat) (f : Nat → Word) : (Memory.ofFn n f).below n = true := by
  simp only [Memory.below, Memory.ofFn, List.all_eq_true, decide_eq_true_eq, List.mem_filterMap, List.mem_range]
  rintro x ⟨a, ha, hx⟩
  split at hx
  · cases hx
  · cases hx; exact ha

/-- The memory after reset is in canonical form. -/
theorem State.reset_mem_wf : State.reset.mem.wf = true := rfl

end Sys2Proof.Machine
end

