-- ==== Sys2Proof/Laws/PerInstr.lean ====
section
/-! SUPPORT. Said of every instruction: the fields sliced from its encoding are its own (spec/30_encoding.md R50, R51). -/

namespace Sys2Proof.Laws.EncodedFields

open Sys2Proof

/-- The three groups of fields of an instruction's word are the instruction's. -/
def Statement (i : Instr) : Prop :=
  wordFunc (encode i) = i.func ∧ wordMods (encode i) = i.mods ∧ wordOff (encode i) = i.off

theorem of_packWord (i : Instr) : Statement i :=
  ⟨wordFunc_packWord _ _ _, wordMods_packWord _ _ _, wordOff_packWord _ _ _⟩

theorem load (mods : Modifiers) (off : BitVec 8) : Statement (.load mods off) := of_packWord _

theorem add (mods : Modifiers) (off : BitVec 8) : Statement (.add mods off) := of_packWord _

theorem store (mods : Modifiers) (off : BitVec 8) : Statement (.store mods off) := of_packWord _

theorem call (mods : Modifiers) (off : BitVec 8) : Statement (.call mods off) := of_packWord _

theorem jmp (mods : Modifiers) (off : BitVec 8) : Statement (.jmp mods off) := of_packWord _

theorem jmpt (mods : Modifiers) (off : BitVec 8) : Statement (.jmpt mods off) := of_packWord _

theorem jmpf (mods : Modifiers) (off : BitVec 8) : Statement (.jmpf mods off) := of_packWord _

theorem dump (mods : Modifiers) (off : BitVec 8) : Statement (.dump mods off) := of_packWord _

theorem exop (mods : Modifiers) (off : BitVec 8) : Statement (.exop mods off) := of_packWord _

theorem halt (mods : Modifiers) (off : BitVec 8) : Statement (.halt mods off) := of_packWord _

theorem unknown10to11 (func : BitVec 4) (mods : Modifiers) (off : BitVec 8) :
    Statement (.unknown10to11 func mods off) := of_packWord _

theorem unknown12to15 (func : BitVec 4) (mods : Modifiers) (off : BitVec 8) :
    Statement (.unknown12to15 func mods off) := of_packWord _

end Sys2Proof.Laws.EncodedFields
end

