-- ==== Sys2Proof/Laws/Run.lean ====
section
/-! SUPPORT. Runs of step requests, unfolded once. -/

namespace Sys2Proof.Safety

open Sys2Proof Sys2Proof.Machine

theorem run_zero (s : State) : run 0 s = .next s := rfl

/-- A run of one request more, whose first request answers a next state. -/
theorem run_succ {k : Nat} {s u : State} (h : step s = .next u) : run (k + 1) s = run k u := by
  simp [run, Host.Core.run, Sys2Proof.core, h]

/-- A run that answers a next state does so through a next state of its first request. -/
theorem run_succ_inv {k : Nat} {s t : State} (h : run (k + 1) s = .next t) :
    ∃ u, step s = .next u ∧ run k u = .next t := by
  cases hs : step s with
  | next u => exact ⟨u, rfl, (run_succ hs).symm.trans h⟩
  | fault r => simp [run, Host.Core.run, Sys2Proof.core, hs] at h
  | refused r => simp [run, Host.Core.run, Sys2Proof.core, hs] at h

/-- A step that answers a next state is a constructed block's. -/
theorem cfg_wf_of_step {s t : State} (h : step s = .next t) : s.cfg.wf = true := by
  unfold step at h
  split at h
  · cases h
  · next hh => simpa using hh

end Sys2Proof.Safety
end

