-- ==== Sys2Proof/Tests/Slice0.lean ====
section
/-! SUPPORT. The model's own tests. The words and the expected values are those of spec/95_test_vectors.md (S and V
numbers in the docstrings) and of the bit pictures of spec/30_encoding.md; the witnesses show that the hypotheses of the
statements can be met, at boundary values. -/

namespace Sys2Proof.Tests

open Sys2Proof Sys2Proof.Machine Sys2Proof.Safety

/-- A running state with `debug` off. -/
def st (size : Nat) (a c p g : Word) (cells : List (Nat × Word)) : State :=
  { State.reset with
    regs := { a := a, b := 0, c := c, d := 0, p := p, g := g }
    mem := { cells := cells }
    cfg := { coreSize := size, debug := false, budgetInit := 0 } }

/-- The same with `debug` on and a budget. -/
def dbg (size : Nat) (budget : BitVec 32) (c : Word) (cells : List (Nat × Word)) : State :=
  { st size 0 c 0 0 cells with
    budget := budget
    cfg := { coreSize := size, debug := true, budgetInit := budget } }

/-- The next state of an outcome, if it is one. -/
def nextOf : Host.Outcome State Fault Refusal → Option State
  | .next t => some t
  | .fault _ => none
  | .refused _ => none

/-- What a test looks at after one step: the registers. -/
def regsAfter (s : State) : Option Regs := (nextOf (step s)).map (·.regs)

/-- What a test looks at after one step: RS, the record and C. -/
def recordAfter (s : State) : Option (RunState × FaultRecord × Word) :=
  (nextOf (step s)).map (fun t => (t.rs, t.record, t.regs.c))

/-- What a test looks at after one step: one cell and P. -/
def cellAfter (s : State) (x : Nat) : Option (Word × Word) :=
  (nextOf (step s)).map (fun t => (t.mem.read x, t.regs.p))

def noMods : Modifiers := ⟨false, false, false, false⟩

def dMod : Modifiers := ⟨true, false, false, false⟩

def iMod : Modifiers := ⟨false, false, false, true⟩

def diMod : Modifiers := ⟨true, false, false, true⟩

/-! ### WellFormed: an ill-formed term for each check -/

theorem test_wf_refuses_code_9_as_10to11 : (Instr.unknown10to11 9 noMods 0).wf = false := by decide

theorem test_wf_refuses_code_12_as_10to11 : (Instr.unknown10to11 12 noMods 0).wf = false := by decide

theorem test_wf_refuses_code_11_as_12to15 : (Instr.unknown12to15 11 noMods 0).wf = false := by decide

theorem test_wf_refuses_empty_core : (BlockConfig.mk 0 false 0).wf = false := by decide

theorem test_wf_refuses_core_past_16_bits : (BlockConfig.mk 65537 false 0).wf = false := by decide

theorem test_memory_wf_refuses_unordered : (Memory.mk [(2, 0), (1, 0)]).wf = false := by decide

theorem test_memory_wf_refuses_unlisted_word : (Memory.mk [(2, 0xFFFF)]).wf = false := by decide

/-! ### Decode: one word per constructor, written out from R50 and R55 -/

theorem test_decode_load : decode 0b0000000000000101 = .load noMods 0x05 := by decide

theorem test_decode_add : decode 0b0001000100000011 = .add iMod 0x03 := by decide

theorem test_decode_store : decode 0b0010101000000000 = .store ⟨true, false, true, false⟩ 0x00 := by decide

theorem test_decode_call : decode 0b0011100010100111 = .call dMod 0xA7 := by decide

theorem test_decode_jmp : decode 0b0100110100000000 = .jmp ⟨true, true, false, true⟩ 0x00 := by decide

theorem test_decode_jmpt : decode 0b0101000000000100 = .jmpt noMods 0x04 := by decide

theorem test_decode_jmpf : decode 0b0110100100000000 = .jmpf diMod 0x00 := by decide

theorem test_decode_dump : decode 0b0111000000000000 = .dump noMods 0x00 := by decide

theorem test_decode_exop : decode 0b1000000000000000 = .exop noMods 0x00 := by decide

theorem test_decode_halt : decode 0b1001000000000000 = .halt noMods 0x00 := by decide

theorem test_decode_unknown_10 : decode 0b1010000000000000 = .unknown10to11 10 noMods 0x00 := by decide

theorem test_decode_unknown_11 : decode 0b1011011000000101 = .unknown10to11 11 ⟨false, true, true, false⟩ 0x05 := by
  decide

theorem test_decode_unknown_12 : decode 0b1100000000000001 = .unknown12to15 12 noMods 0x01 := by decide

theorem test_decode_sentinel : decode 0b1111111111111111 = .unknown12to15 15 ⟨true, true, true, true⟩ 0xFF := by decide

/-- R52: the literal stands behind the instruction word exactly with the D-bit. -/
theorem test_encode_words :
    encodeWords (.jmp ⟨true, true, false, true⟩ 0) 1 = [0x4D00, 0x0001] ∧
    encodeWords (.load ⟨false, true, true, false⟩ 5) 1 = [0x0605] := by decide

/-! ### Address resolution -/

/-- V1 to V16: core of 64 words, P = 0010, G = 0020, offset 02 or literal 0003; the cells a form reads hold 0100 + a. -/
def forms (lit : Word) : State :=
  st 64 0xAA 0 0x10 0x20
    [(1, lit), (3, 0x103), (0x13, 0x113), (0x23, 0x123), (0x33, 0x133)]

theorem test_one_word_forms :
    ([0x0002, 0x0102, 0x0202, 0x0302, 0x0402, 0x0502, 0x0602, 0x0702] : List Word).map
        (fun w => effectiveAddress (wordMods w) (wordOff w) (forms 0x101)) =
      [0x0003, 0x0103, 0x0023, 0x0123, 0x0013, 0x0113, 0x0033, 0x0133] := by decide

theorem test_two_word_forms :
    ([0x0800, 0x0900, 0x0A00, 0x0B00, 0x0C00, 0x0D00, 0x0E00, 0x0F00] : List Word).map
        (fun w => effectiveAddress (wordMods w) (wordOff w) (forms 3)) =
      [0x0003, 0x0103, 0x0023, 0x0123, 0x0013, 0x0113, 0x0033, 0x0133] := by decide

/-- V20: in a full-size core the literal of an instruction at FFFF is in cell 0. -/
theorem test_literal_wraps :
    regsAfter (st 65536 7 0xFFFF 0 0 [(0, 0x1234), (0xFFFF, 0x0800)]) = some ⟨0x1234, 7, 1, 0x1234, 0, 0⟩ := by decide

/-- V21: the literal of an instruction in the last cell of a small core. -/
theorem test_literal_out_of_range :
    recordAfter (st 16 0 0xF 0 0 [(0xF, 0x2800)]) = some (.faulted, ⟨.pcOutOfRange, 0xF, 0x10, 2⟩, 0xF) := by decide

/-- V22: a pointer outside the core. -/
theorem test_pointer_out_of_range :
    recordAfter (st 16 0 0 0 0 [(0, 0x0900), (1, 0x40)]) =
      some (.faulted, ⟨.indirectAddressOutOfRange, 0, 0x40, 0⟩, 0) := by decide

/-! ### The instructions, one step each -/

/-- V30 -/
theorem test_load : regsAfter (st 16 7 0 0 0 [(0, 0x0005)]) = some ⟨6, 7, 1, 6, 0, 0⟩ := by decide

/-- V18: the address sum wraps, and `load` does not use it as an address. -/
theorem test_load_wraps :
    regsAfter (st 16 0 0 0xFFFF 0 [(0, 0x04FF)]) = some ⟨0xFF, 0, 1, 0xFF, 0xFFFF, 0⟩ := by decide

/-- V32 -/
theorem test_add : regsAfter (st 16 6 1 0 0 [(1, 0x1003)]) = some ⟨0xB, 0, 2, 5, 0, 0⟩ := by decide

/-- V33 -/
theorem test_add_wraps : regsAfter (st 16 0xFFFF 0 0 0 [(0, 0x1800), (1, 1)]) = some ⟨0, 0, 2, 1, 0, 0⟩ := by decide

/-- V38 -/
theorem test_store_through_pointer :
    cellAfter (st 16 0xBEEF 0 0 0 [(0, 0x2900), (1, 4), (4, 0xA)]) 0xA = some (0xBEEF, 0) := by decide

/-- V39: a good pointer to a bad target. -/
theorem test_store_out_of_range :
    recordAfter (st 16 5 0 0 0 [(0, 0x2900), (1, 4), (4, 0x10)]) =
      some (.faulted, ⟨.storeAddressOutOfRange, 0, 0x10, 2⟩, 0) := by decide

/-- V52: with the P-bit the old P is added twice. -/
theorem test_call_adds_p_again :
    cellAfter (st 64 0x30 0 0x10 0 [(0, 0x3C00), (1, 8)]) 0x28 = some (0x10, 0x28) ∧
    cellAfter (st 64 0x30 0 0x10 0 [(0, 0x3C00), (1, 8)]) 0x29 = some (2, 0x28) := by decide

/-- V57: the frame's second cell is not wrapped. -/
theorem test_call_at_the_last_address :
    recordAfter (st 65536 7 0 0 0 [(0, 0x3800)]) = some (.faulted, ⟨.storeAddressOutOfRange, 0, 0xFFFF, 3⟩, 0) := by
  decide

/-- V61 -/
theorem test_jmp_through_frame :
    regsAfter (st 64 0 8 0x20 0 [(8, 0x4D00), (9, 1), (0x21, 4)]) = some ⟨0, 0, 4, 4, 0x20, 0⟩ := by decide

/-- V60: a jump out of the core does not fault itself. -/
theorem test_jmp_out_of_range : regsAfter (st 16 0 0 0 0 [(0, 0x4800), (1, 0x10)]) = some ⟨0, 0, 0x10, 0x10, 0, 0⟩ := by
  decide

/-- V63 -/
theorem test_jmpt_not_taken : regsAfter (st 16 0 4 0 0 [(4, 0x5800), (5, 2)]) = some ⟨0, 0, 6, 2, 0, 0⟩ := by decide

/-- V64 -/
theorem test_jmpt_taken : regsAfter (st 16 0x8000 0 0 0 [(0, 0x5004)]) = some ⟨0x8000, 0, 5, 5, 0, 0⟩ := by decide

/-- V65 -/
theorem test_jmpf_taken : regsAfter (st 16 0 4 0 0 [(4, 0x6800), (5, 9)]) = some ⟨0, 0, 9, 9, 0, 0⟩ := by decide

/-- V66 -/
theorem test_jmpf_not_taken : regsAfter (st 16 1 4 0 0 [(4, 0x6800), (5, 9)]) = some ⟨1, 0, 6, 9, 0, 0⟩ := by decide

/-- V70 -/
theorem test_dump :
    (nextOf (step (st 16 0x10 3 0 0 [(3, 0x7000)]))).map (·.event) = some (some (.dump ⟨0x10, 0, 4, 4, 0, 0⟩)) := by
  decide

/-- V71 -/
theorem test_exop :
    (nextOf (step (st 16 0 5 0 0 [(5, 0x8000)]))).map (fun t => (t.event, t.rs, t.regs.c)) =
      some (some .unimplemented, .running, 6) := by decide

/-- V73: `halt` consumes its literal. -/
theorem test_halt :
    (nextOf (step (st 16 0 0 0 0 [(0, 0x9800), (1, 0x1234)]))).map (fun t => (t.event, t.rs, t.regs)) =
      some (some .halt, .halted, ⟨0, 0, 2, 0x1234, 0, 0⟩) := by decide

/-- V74 -/
theorem test_unknown_10 :
    recordAfter (st 16 0 4 0 0 [(4, 0xA000)]) = some (.faulted, ⟨.unknownFunctionCode, 4, 4, 0xA⟩, 4) := by decide

/-- V76: a good pointer, so the code is what faults. -/
theorem test_unknown_15 :
    recordAfter (st 16 0 0 0 0 [(0, 0xF900), (1, 2), (2, 5)]) =
      some (.faulted, ⟨.unknownFunctionCode, 0, 0, 0xF⟩, 0) := by decide

/-! ### Entry checks, budget, sentinel -/

/-- V81: the program counter is checked before the budget. -/
theorem test_pc_before_budget :
    recordAfter (dbg 16 0 0x10 []) = some (.faulted, ⟨.pcOutOfRange, 0x10, 0x10, 0⟩, 0x10) := by decide

/-- V82 -/
theorem test_budget_zero :
    recordAfter (dbg 16 0 0 [(0, 0x9000)]) = some (.faulted, ⟨.stepBudgetExceeded, 0, 0, 0⟩, 0) := by decide

/-- V83: a `halt` counts as a step. -/
theorem test_budget_counts_halt :
    (nextOf (step (dbg 16 1 0 [(0, 0x9000)]))).map (fun t => (t.rs, t.budget)) = some (.halted, 0) := by decide

/-- V84: a faulting step is not counted. -/
theorem test_budget_keeps_on_fault :
    (nextOf (step (dbg 16 3 0 [(0, 0x2800), (1, 0x10)]))).map (fun t => (t.rs, t.budget)) = some (.faulted, 3) := by
  decide

/-- S9: the first step of a debug block with nothing loaded. -/
theorem test_sentinel :
    recordAfter (dbg 16 5 0 []) = some (.faulted, ⟨.indirectAddressOutOfRange, 0, 0xFFFF, 0xF⟩, 0) := by decide

/-- The first instruction after reset, from the bits of a table row. -/
theorem test_first_instruction_after_reset :
    regsAfter (State.reset.withFetchWord 16 0x0005) = some ⟨6, 0, 1, 6, 0, 0⟩ ∧
    decodeTableWord 16 0x0005 = some (.load noMods 5) := by decide

/-! ### The assembler -/

/-- V90 -/
theorem test_asm_two_instructions :
    assemble ['l', ' ', '0', '5', ' ', 'a', ' ', '0', '3'] = .ok [0x0005, 0x1003] := by rfl

/-- V91 -/
theorem test_asm_modifiers :
    assemble ['d', ' ', 'p', ' ', 'i', ' ', 'j', ' ', '0', '0', '0', '1'] = .ok [0x4D00, 0x0001] := by rfl

/-- V94: a number that is the first token is a data word; R61: a comment. -/
theorem test_asm_data_word :
    assemble ['0', '0', '1', '2', ' ', 'l', ' ', '0', '5', ';', 'x', '!', '\n'] = .ok [0x0012, 0x0005] := by rfl

/-- V95 to V98 -/
theorem test_asm_errors :
    assemble ['d', ' ', 'l'] = .error .missingLiteral ∧
    assemble ['l', ' ', '1', '0', '0'] = .error .offsetTooLarge ∧
    assemble ['p', ' ', 'p', ' ', 'l', ' ', '0', '5'] = .error .repeatedModifier ∧
    assemble ['f', 'f'] = .ok [0x6000, 0x6000] := ⟨rfl, rfl, rfl, rfl⟩

/-! ### Witnesses: states and operands that meet the hypotheses of each statement -/

theorem test_witness_DecodeAndEncodeAreInverse :
    (Instr.unknown10to11 10 noMods 0xFF).wf = true ∧ (Instr.unknown10to11 11 noMods 0).wf = true ∧
    (Instr.unknown12to15 12 noMods 0).wf = true ∧ (Instr.unknown12to15 15 noMods 0).wf = true := by decide

theorem test_witness_OffsetIsIgnoredWithTheDBit :
    (0x2900 : Word).toNat / 256 = (0x29FF : Word).toNat / 256 ∧ (0x2900 : Word).getLsbD 11 = true := by decide

/-- A core of 16 words with C in its last cell: the literal is outside. -/
theorem test_witness_AddressResolutionByStages_literal :
    dMod.db = true ∧ (st 16 0 15 0 0 []).cfg.coreSize ≤ ((st 16 0 15 0 0 []).regs.c + 1).toNat := by decide

/-- C in the last cell but one and a literal equal to `coreSize`: the literal is inside, the pointer just outside. -/
theorem test_witness_AddressResolutionByStages_pointer :
    (diMod.db = true → ((st 16 0 14 0 0 [(15, 16)]).regs.c + 1).toNat < (st 16 0 14 0 0 [(15, 16)]).cfg.coreSize) ∧
    diMod.ib = true ∧
    (st 16 0 14 0 0 [(15, 16)]).cfg.coreSize ≤ (pointerAddress diMod 0 (st 16 0 14 0 0 [(15, 16)])).toNat := by decide

/-- The pointer is the last cell: both checks pass. -/
theorem test_witness_AddressResolutionByStages_ok :
    Resolvable diMod 0 (st 16 0 14 0 0 [(15, 15)]) := by decide

theorem test_witness_SixteenAddressForms :
    (forms 3).regs.c + 1 = 1 ∧ (2 : BitVec 8).setWidth 16 = (2 : Word) ∧ (forms 3).mem.read (1 : Word).toNat = 3 := by
  decide

theorem test_witness_ResolutionFaultsForEveryFunction_literal :
    (Instr.halt dMod 0).mods.db = true ∧ (st 16 0 15 0 0 []).cfg.coreSize ≤ ((st 16 0 15 0 0 []).regs.c + 1).toNat := by
  decide

theorem test_witness_ResolutionFaultsForEveryFunction_pointer :
    ((Instr.dump diMod 0).mods.db = true →
      ((st 16 0 14 0 0 [(15, 16)]).regs.c + 1).toNat < (st 16 0 14 0 0 [(15, 16)]).cfg.coreSize) ∧
    (Instr.dump diMod 0).mods.ib = true ∧
    (st 16 0 14 0 0 [(15, 16)]).cfg.coreSize ≤
      (pointerAddress (Instr.dump diMod 0).mods (Instr.dump diMod 0).off (st 16 0 14 0 0 [(15, 16)])).toNat := by decide

theorem test_witness_CompletedStepWritesD :
    (Instr.call dMod 0).wf = true ∧ (st 64 0x30 0 0x10 0 [(1, 8)]).rs ≠ .faulted ∧
    ∃ t, exec (.call dMod 0) (st 64 0x30 0 0x10 0 [(1, 8)]) = .next t ∧ t.rs ≠ .faulted :=
  ⟨by decide, by decide, _, rfl, by decide⟩

/-- For the statements of load, add, jmp, jmpt, jmpf, dump, exop, halt and the unknown codes: literal and pointer in the
last cell of a 16-word core. -/
theorem test_witness_Resolvable_literal_and_pointer_at_the_end :
    Resolvable diMod 0 (st 16 1 14 0 0 [(15, 15)]) ∧ Resolvable diMod 0 (st 16 0 14 0 0 [(15, 15)]) ∧
    Resolvable noMods 0xFF (st 1 0 0 0 0 []) := by decide

theorem test_witness_StoreWritesTheResolvedCell :
    Resolvable dMod 0 (st 16 5 0 0 0 [(1, 15)]) ∧
    (effectiveAddress dMod 0 (st 16 5 0 0 0 [(1, 15)])).toNat < (st 16 5 0 0 0 [(1, 15)]).cfg.coreSize := by decide

theorem test_witness_StoreOutOfRangeFaults :
    Resolvable dMod 0 (st 16 5 0 0 0 [(1, 16)]) ∧
    (st 16 5 0 0 0 [(1, 16)]).cfg.coreSize ≤ (effectiveAddress dMod 0 (st 16 5 0 0 0 [(1, 16)])).toNat := by decide

/-- V54: the frame just fits. -/
theorem test_witness_CallBuildsTheFrame :
    (st 16 3 0 0 0 [(1, 14)]).cfg.wf = true ∧ Resolvable dMod 0 (st 16 3 0 0 0 [(1, 14)]) ∧
    (14 : Word) = effectiveAddress dMod 0 (st 16 3 0 0 0 [(1, 14)]) + (st 16 3 0 0 0 [(1, 14)]).regs.p ∧
    (14 : Word).toNat + 1 < (st 16 3 0 0 0 [(1, 14)]).cfg.coreSize := by decide

/-- V55: one cell further it does not. -/
theorem test_witness_CallOutOfRangeFaults :
    Resolvable dMod 0 (st 16 3 0 0 0 [(1, 15)]) ∧
    (15 : Word) = effectiveAddress dMod 0 (st 16 3 0 0 0 [(1, 15)]) + (st 16 3 0 0 0 [(1, 15)]).regs.p ∧
    (st 16 3 0 0 0 [(1, 15)]).cfg.coreSize ≤ (15 : Word).toNat + 1 := by decide

/-- P3: the caller's call at 2 and the callee's jump at 8. -/
theorem test_witness_ReturnJumpReachesTheCaller :
    ∃ t, exec (.call dMod 0) (st 64 8 2 0 0 [(3, 0x20), (9, 1)]) = .next t ∧ t.rs = .running ∧
      (st 64 8 2 0 0 [(3, 0x20), (9, 1)]).cfg.wf = true ∧ (st 64 8 2 0 0 [(3, 0x20), (9, 1)]).rs = .running ∧
      (t.regs.c + 1).toNat < t.cfg.coreSize ∧ t.mem.read (t.regs.c + 1).toNat = 1 :=
  ⟨_, rfl, by decide, by decide, by decide, by decide, by decide⟩

/-- The last cell of a one-word core, with the last unit of the budget. -/
theorem test_witness_StepRunsTheDecodedInstruction :
    (dbg 1 1 0 [(0, 0x9000)]).cfg.wf = true ∧ (dbg 1 1 0 [(0, 0x9000)]).rs = .running ∧
    (dbg 1 1 0 [(0, 0x9000)]).regs.c.toNat < (dbg 1 1 0 [(0, 0x9000)]).cfg.coreSize ∧
    ((dbg 1 1 0 [(0, 0x9000)]).cfg.debug = true → (dbg 1 1 0 [(0, 0x9000)]).budget ≠ 0) ∧
    decode ((dbg 1 1 0 [(0, 0x9000)]).mem.read (dbg 1 1 0 [(0, 0x9000)]).regs.c.toNat) = .halt noMods 0 ∧
    (Instr.halt noMods 0).wf = true := by decide

theorem test_witness_StepWhileStoppedDoesNothing :
    State.reset.cfg.wf = true ∧ ({ State.reset with rs := .halted } : State).rs ≠ .running ∧
    ({ State.reset with rs := .faulted } : State).rs ≠ .running := by decide

theorem test_witness_EntryChecksInOrder :
    (dbg 16 0 16 []).cfg.wf = true ∧ (dbg 16 0 16 []).rs = .running ∧
    (dbg 16 0 16 []).cfg.coreSize ≤ (dbg 16 0 16 []).regs.c.toNat ∧
    (dbg 16 0 15 []).regs.c.toNat < (dbg 16 0 15 []).cfg.coreSize ∧ (dbg 16 0 15 []).cfg.debug = true ∧
    (dbg 16 0 15 []).budget = 0 := by decide

theorem test_witness_EveryStepHasANextState :
    (st 1 0 0 0 0 []).cfg.wf = true ∧ (st 65536 0 0 0 0 []).cfg.wf = true := by decide

theorem test_witness_FaultsArePrecise :
    (st 16 0 4 0 0 [(4, 0xA000)]).rs = .running ∧
    ∃ t, step (st 16 0 4 0 0 [(4, 0xA000)]) = .next t ∧ t.rs = .faulted :=
  ⟨by decide, _, rfl, by decide⟩

/-- One faulting step for each cause a step can raise, both kinds of PcOutOfRange and of StoreAddressOutOfRange. -/
theorem test_witness_FaultRecordByCause :
    ([st 16 0 16 0 0 [], st 16 0 15 0 0 [(15, 0x2800)], st 16 0 0 0 0 [(0, 0x0900), (1, 16)],
      st 16 0 0 0 0 [(0, 0x2800), (1, 16)], st 16 0 0 0 0 [(0, 0x3800), (1, 15)], dbg 16 0 0 [],
      st 16 0 0 0 0 [(0, 0xA000)]] : List State).map (fun s => (recordAfter s).map (fun x => x.2.1.cause)) =
      [some .pcOutOfRange, some .pcOutOfRange, some .indirectAddressOutOfRange, some .storeAddressOutOfRange,
        some .storeAddressOutOfRange, some .stepBudgetExceeded, some .unknownFunctionCode] := by decide

theorem test_witness_WhoWritesWhat :
    (Instr.halt noMods 0).wf = true ∧ ∃ t, exec (.halt noMods 0) (st 16 0 0 0 0 []) = .next t ∧
      t.rs ≠ (st 16 0 0 0 0 []).rs :=
  ⟨by decide, _, rfl, by decide⟩

theorem test_witness_ProgramCounterPassesTheInstruction :
    (Instr.jmpt dMod 0).wf = true ∧ (st 16 0 4 0 0 [(5, 2)]).rs ≠ .faulted ∧
    (∃ t, exec (.jmpt dMod 0) (st 16 0 4 0 0 [(5, 2)]) = .next t ∧ t.rs ≠ .faulted) ∧
    (Instr.jmpt dMod 0).func ≠ 3 ∧ (Instr.jmpt dMod 0).func ≠ 4 ∧
    ((Instr.jmpt dMod 0).func = 5 → (st 16 0 4 0 0 [(5, 2)]).regs.a = 0) ∧
    ((Instr.jmpt dMod 0).func = 6 → (st 16 0 4 0 0 [(5, 2)]).regs.a ≠ 0) :=
  ⟨by decide, by decide, ⟨_, rfl, by decide⟩, by decide, by decide, by decide, by decide⟩

theorem test_witness_OldDIsNoInput : (st 16 0 0 0 0 []).rs ≠ .faulted := by decide

theorem test_witness_OnlyCoreMemoryMatters :
    (st 2 0 0 0 0 [(0, 0x9000)]).cfg.wf = true ∧
    (∀ a, a < 2 → (Memory.mk [(0, 0x9000), (2, 7)]).read a = (st 2 0 0 0 0 [(0, 0x9000)]).mem.read a) ∧
    ∃ t, step (st 2 0 0 0 0 [(0, 0x9000)]) = .next t :=
  ⟨by decide, by decide, _, rfl⟩

/-- V37: a store into the next instruction's cell. -/
theorem test_witness_StoreIsSeenByTheNextFetch :
    (st 16 0x9000 0 0 0 [(0, 0x2000)]).cfg.wf = true ∧ (st 16 0x9000 0 0 0 [(0, 0x2000)]).rs = .running ∧
    (∃ t, exec (.store noMods 0) (st 16 0x9000 0 0 0 [(0, 0x2000)]) = .next t ∧ t.rs = .running ∧
      (t.cfg.debug = true → t.budget ≠ 0)) ∧
    effectiveAddress noMods 0 (st 16 0x9000 0 0 0 [(0, 0x2000)]) =
      nextInstr noMods (st 16 0x9000 0 0 0 [(0, 0x2000)]) :=
  ⟨by decide, by decide, ⟨_, rfl, by decide, by decide⟩, by decide⟩

/-- S5: the endless loop `d j 0000` with a budget of 2. -/
def loop : State := dbg 16 2 0 [(0, 0x4800), (1, 0)]

theorem test_witness_loop_BlockInv : BlockInv loop :=
  ⟨by decide, by decide, by decide, fun _ => rfl, nofun, by decide, by decide, by decide⟩

theorem test_witness_StepKeepsBlockInv : BlockInv loop ∧ ∃ t, step loop = .next t :=
  ⟨test_witness_loop_BlockInv, _, rfl⟩

/-- A halting state in which the invariant holds. -/
theorem test_witness_HaltedIsTheNormalEnd :
    BlockInv (st 1 0 0 0 0 [(0, 0x9000)]) ∧ (st 1 0 0 0 0 [(0, 0x9000)]).rs = .running ∧
    ∃ t, step (st 1 0 0 0 0 [(0, 0x9000)]) = .next t ∧ t.rs = .halted :=
  ⟨⟨by decide, by decide, by decide, fun _ => rfl, nofun, by decide, by decide, by decide⟩, by decide, _, rfl, by decide⟩

/-- The smallest and the largest core, and a load of one word. -/
theorem test_witness_HostActionsKeepBlockInv :
    (BlockConfig.mk 1 true 0).wf = true ∧ (BlockConfig.mk 65536 false 0).wf = true ∧ BlockInv loop ∧
    ∃ t, loop.loadText ['h', ' ', '0'] = .ok t :=
  ⟨by decide, by decide, test_witness_loop_BlockInv, _, rfl⟩

theorem test_witness_StoppedStaysStopped :
    loop.cfg.wf = true ∧ ({ loop with rs := .halted } : State).rs ≠ .running := by decide

theorem test_witness_RunKeepsConfigurationAndG : ∃ t, run 3 loop = .next t := ⟨_, rfl⟩

/-- S5: after two steps the budget is spent and the loop is still running. -/
theorem test_witness_BudgetRunsOutExactly :
    BlockInv loop ∧ loop.rs = .running ∧ loop.cfg.debug = true ∧
    ∃ t, run 2 loop = .next t ∧ 2 ≤ loop.budget.toNat ∧ 2 = loop.budget.toNat ∧ t.rs = .running ∧
      t.regs.c.toNat < t.cfg.coreSize :=
  ⟨test_witness_loop_BlockInv, by decide, by decide, _, rfl, by decide, by decide, by decide, by decide⟩

theorem test_witness_ResetTable :
    (15 : Nat) < (BlockConfig.mk 16 true 0).coreSize ∧ (15 : Nat) < (BlockConfig.mk 16 false 0).coreSize := by decide

theorem test_witness_SoftResetIsIdempotent : ∃ t, run 2 loop = .next t := ⟨_, rfl⟩

/-- V86 -/
theorem test_witness_SoftResetDoesNotReloadTheBudget :
    (dbg 16 0 0 [(0, 0x9000)]).cfg.wf = true ∧ (dbg 16 0 0 [(0, 0x9000)]).rs = .running ∧
    ∃ t, step (dbg 16 0 0 [(0, 0x9000)]) = .next t ∧ t.record.cause = .stepBudgetExceeded ∧ t.rs = .faulted :=
  ⟨by decide, by decide, _, rfl, by decide, by decide⟩

theorem test_witness_HostPortEffects :
    loop.cfg.coreSize ≤ (16 : Word).toNat ∧ (15 : Word).toNat < loop.cfg.coreSize := by decide

/-- One word too many, and exactly as many as fit, in a core of 2 words. -/
theorem test_witness_LoaderAppendsAtTheCursor :
    (st 2 0 0 0 0 []).cursor ≤ (st 2 0 0 0 0 []).cfg.coreSize ∧
    (st 2 0 0 0 0 []).cfg.coreSize < (st 2 0 0 0 0 []).cursor + ([1, 2, 3] : List Word).length ∧
    (st 2 0 0 0 0 []).cursor + ([1, 2] : List Word).length ≤ (st 2 0 0 0 0 []).cfg.coreSize := by decide

theorem test_witness_AssemblerEmitsOneInstruction :
    ([.d, .i] : List ModLetter).Nodup ∧ ModLetter.d ∈ ([.d, .i] : List ModLetter) ∧ (0xFFFF : Nat) ≤ 0xFFFF ∧
    ([.p] : List ModLetter).Nodup ∧ ModLetter.d ∉ ([.p] : List ModLetter) ∧ (0xFF : Nat) ≤ 0xFF ∧
    (0xFF : Nat) < 0x100 ∧ (0x100 : Nat) ≤ 0xFFFF := by decide

end Sys2Proof.Tests
end

section
/-! SUPPORT. The causes a step can raise (spec/60_exceptions.md R121, R127), said once for every place that raises. -/

namespace Sys2Proof.Safety

open Sys2Proof Sys2Proof.Machine

/-- R127: a cause of the block itself: a fault, and none of the two that arise outside the block. -/
abbrev IsStepCause (c : Cause) : Prop := c ≠ .none ∧ c ≠ .outOfMemory ∧ c ≠ .asmSegmentOutOfRange

theorem entryCheck_error_isStepCause {s : State} {r : Raise} (h : entryCheck s = .error r) : IsStepCause r.cause := by
  rcases entryCheck_cases s with ⟨_, h'⟩ | ⟨_, _, _, h'⟩ | ⟨_, _, h'⟩ <;> cases h.symm.trans h' <;>
    exact ⟨nofun, nofun, nofun⟩

theorem resolve_error_isStepCause {mods : Modifiers} {off : BitVec 8} {s : State} {r : Raise}
    (h : resolve mods off s = .error r) : IsStepCause r.cause := by
  rcases resolve_cases mods off s with ⟨_, _, h'⟩ | ⟨_, _, _, h'⟩ | ⟨_, h'⟩ <;> cases h.symm.trans h' <;>
    exact ⟨nofun, nofun, nofun⟩

theorem armOf_error_isStepCause {i : Instr} {s : State} {r : Raise} (h : armOf i s = .error r) :
    IsStepCause r.cause := by
  rcases armOf_error h with ⟨_, rfl, _⟩ | ⟨_, rfl, _⟩ | ⟨rfl, _⟩ <;> exact ⟨nofun, nofun, nofun⟩

end Sys2Proof.Safety
end

section
/-! The invariant of a constructed block (spec/00_scope.md R5, spec/10_state.md R20, R21, spec/20_memory.md R30): each
part of a step keeps it, so every step does. -/

namespace Sys2Proof.Safety

open Sys2Proof Sys2Proof.Machine

/-- The invariant does not look at the registers, BUDGET or the event. -/
theorem BlockInv.of_fields_eq {s t : State} (h : BlockInv s) (hmem : t.mem = s.mem) (hrs : t.rs = s.rs)
    (hrecord : t.record = s.record) (hcursor : t.cursor = s.cursor) (hcfg : t.cfg = s.cfg) : BlockInv t := by
  cases t
  subst hmem hrs hrecord hcursor hcfg
  exact ⟨h.cfg_wf, h.mem_wf, h.mem_below, h.record_empty, h.record_cause, h.not_outOfMemory, h.not_asmSegment,
    h.cursor_le⟩

theorem idle_keeps_blockInv {s : State} (h : BlockInv s) : BlockInv (idle s) :=
  h.of_fields_eq rfl rfl rfl rfl rfl

theorem resolved_keeps_blockInv {s : State} (r : Resolved) (h : BlockInv s) : BlockInv (s.resolved r) :=
  h.of_fields_eq rfl rfl rfl rfl rfl

theorem complete_keeps_blockInv {s : State} (h : BlockInv s) : BlockInv (complete s) :=
  h.of_fields_eq rfl rfl rfl rfl rfl

/-- R129: fault entry leaves the memory, the cursor and the configuration, and fills the record. -/
theorem takeFault_keeps_blockInv {s : State} {r : Raise} (func : BitVec 4) (hr : IsStepCause r.cause)
    (h : BlockInv s) : BlockInv (takeFault func r s) := by
  obtain ⟨hnone, hoom, hseg⟩ := hr
  exact
    { cfg_wf := h.cfg_wf
      mem_wf := h.mem_wf
      mem_below := h.mem_below
      record_empty := fun hrs => absurd rfl hrs
      record_cause := fun _ => hnone
      not_outOfMemory := hoom
      not_asmSegment := hseg
      cursor_le := h.cursor_le }

/-- R30, R37: a write below `coreSize` keeps the memory canonical and lists nothing outside Core Memory. -/
theorem write_keeps_mem {m : Memory} {n a : Nat} (v : Word) (ha : a < n) (h : m.wf = true ∧ m.below n = true) :
    (m.write a v).wf = true ∧ (m.write a v).below n = true :=
  ⟨Memory.write_wf a v h.1, Memory.write_below v ha h.2⟩

/-- The memory an arm leaves: only the bounds-checked writes of `store` and `call` change it. -/
theorem armFrame_keeps_mem {i : Instr} {s t : State} (hf : ArmFrame i s t) (h : BlockInv s) :
    t.mem.wf = true ∧ t.mem.below s.cfg.coreSize = true := by
  have hmem : s.mem.wf = true ∧ s.mem.below s.cfg.coreSize = true := ⟨h.mem_wf, h.mem_below⟩
  rcases hf.mem with heq | ⟨_, hin, heq⟩ | ⟨_, hin, heq⟩ <;> rw [heq]
  case inl => exact hmem
  case inr.inl => exact write_keeps_mem _ ((inCore_iff _ _).mp hin) hmem
  case inr.inr =>
    have hfa := (frameInCore_iff _ _).mp hin
    have hsucc := toNat_succ_of_lt h.cfg_wf hfa
    exact write_keeps_mem _ (hsucc ▸ hfa) (write_keeps_mem _ (Nat.lt_of_succ_lt hfa) hmem)

/-- R112, R127: an arm that goes through in a running block leaves the record empty, for RS stays RUNNING or becomes
HALTED. -/
theorem armFrame_keeps_blockInv {i : Instr} {s t : State} (hf : ArmFrame i s t) (hrun : s.rs = .running)
    (h : BlockInv s) : BlockInv t := by
  have hempty : t.record = FaultRecord.empty := hf.record.trans (h.record_empty (by simp [hrun]))
  have hrs : t.rs ≠ .faulted := by
    rcases hf.rs with e | ⟨e, _⟩ <;> simp [e, hrun]
  obtain ⟨hwf, hbelow⟩ := armFrame_keeps_mem hf h
  exact
    { cfg_wf := hf.cfg ▸ h.cfg_wf
      mem_wf := hwf
      mem_below := hf.cfg ▸ hbelow
      record_empty := fun _ => hempty
      record_cause := fun e => absurd e hrs
      not_outOfMemory := hempty ▸ nofun
      not_asmSegment := hempty ▸ nofun
      cursor_le := by rw [hf.cursor, hf.cfg]; exact h.cursor_le }

theorem exec_keeps_blockInv {i : Instr} {s t : State} (hrun : s.rs = .running) (h : BlockInv s)
    (hx : exec i s = .next t) : BlockInv t := by
  rcases exec_cases hx with ⟨r, hres, rfl⟩ | ⟨r, _, harm, rfl⟩ | ⟨u, _, harm, rfl⟩
  · exact takeFault_keeps_blockInv _ (resolve_error_isStepCause hres) h
  · exact takeFault_keeps_blockInv _ (armOf_error_isStepCause harm) h
  · exact complete_keeps_blockInv (armFrame_keeps_blockInv (armOf_ok harm) hrun (resolved_keeps_blockInv _ h))

/-- Settles O37, along what a step request can do: nothing, the fault of an entry check, or the decoded instruction. -/
theorem stepKeepsBlockInv : Obligations.StepKeepsBlockInv := by
  intro s t h hstep
  rcases step_cases h.cfg_wf with ⟨_, hs⟩ | ⟨r, _, hentry, hs⟩ | ⟨hrun, _, hs⟩ <;> rw [hs] at hstep
  · cases hstep
    exact idle_keeps_blockInv h
  · cases hstep
    exact takeFault_keeps_blockInv 0 (entryCheck_error_isStepCause hentry) h
  · exact exec_keeps_blockInv hrun h hstep

end Sys2Proof.Safety
end

section
/-! What an instruction, a step and a run leave unchanged (spec/10_state.md R16, R23, R27), said once along the parts of
a step. -/

namespace Sys2Proof.Safety

open Sys2Proof Sys2Proof.Machine

/-- R16, R23, R157: what only the host or the loader writes, G, the write cursor and the configuration, is the same in
both states. -/
structure SameHostOwned (s t : State) : Prop where
  cfg : t.cfg = s.cfg
  g : t.regs.g = s.regs.g
  cursor : t.cursor = s.cursor

theorem SameHostOwned.trans {s t u : State} (h : SameHostOwned s t) (h' : SameHostOwned t u) : SameHostOwned s u :=
  ⟨h'.cfg.trans h.cfg, h'.g.trans h.g, h'.cursor.trans h.cursor⟩

theorem takeFault_sameHostOwned (func : BitVec 4) (r : Raise) (s : State) : SameHostOwned s (takeFault func r s) :=
  ⟨rfl, rfl, rfl⟩

theorem armFrame_sameHostOwned {i : Instr} {s t : State} (hf : ArmFrame i s t) : SameHostOwned s t :=
  ⟨hf.cfg, hf.g, hf.cursor⟩

theorem exec_sameHostOwned {i : Instr} {s t : State} (h : exec i s = .next t) : SameHostOwned s t := by
  rcases exec_cases h with ⟨r, _, rfl⟩ | ⟨r, _, _, rfl⟩ | ⟨u, _, harm, rfl⟩
  · exact takeFault_sameHostOwned _ _ _
  · exact takeFault_sameHostOwned _ _ _
  · obtain ⟨hcfg, hg, hcursor⟩ := armFrame_sameHostOwned (armOf_ok harm)
    exact ⟨hcfg, hg, hcursor⟩

theorem step_sameHostOwned {s t : State} (h : step s = .next t) : SameHostOwned s t := by
  rcases step_cases (cfg_wf_of_step h) with ⟨_, hs⟩ | ⟨r, _, _, hs⟩ | ⟨_, _, hs⟩ <;> rw [hs] at h
  · cases h
    exact ⟨rfl, rfl, rfl⟩
  · cases h
    exact takeFault_sameHostOwned _ _ _
  · exact exec_sameHostOwned h

theorem run_sameHostOwned {k : Nat} {s t : State} (h : run k s = .next t) : SameHostOwned s t := by
  induction k generalizing s with
  | zero =>
    cases h
    exact ⟨rfl, rfl, rfl⟩
  | succ k ih =>
    obtain ⟨u, hstep, hrun⟩ := run_succ_inv h
    exact (step_sameHostOwned hstep).trans (ih hrun)

/-- Settles O41, by induction on the number of step requests. -/
theorem runKeepsConfigurationAndG : Obligations.RunKeepsConfigurationAndG := by
  intro k s t h
  obtain ⟨hcfg, hg, hcursor⟩ := run_sameHostOwned h
  exact ⟨hcfg, hg, hcursor⟩

/-- Settles O30: a fault entry writes RS alone of these, and an arm that goes through writes what its frame says. -/
theorem whoWritesWhat : Obligations.WhoWritesWhat := by
  intro i s t _ h
  obtain ⟨hcfg, hg, hcursor⟩ := exec_sameHostOwned h
  rcases exec_cases h with ⟨r, _, rfl⟩ | ⟨r, _, _, rfl⟩ | ⟨u, _, harm, rfl⟩
  · simp
  · simp
  · have hf := armOf_ok harm
    refine ⟨hf.a, hf.b, hf.p, hg, fun hmem => ?_, fun hrs => ?_, hcursor, hcfg⟩
    · rcases hf.mem with heq | ⟨hfunc, _⟩ | ⟨hfunc, _⟩
      · exact absurd heq hmem
      · exact .inl hfunc
      · exact .inr hfunc
    · rcases hf.rs with heq | ⟨hhalted, hfunc, _⟩
      · exact absurd heq hrs
      · exact .inr ⟨hhalted, hfunc⟩

end Sys2Proof.Safety
end

section
/-! The old value of D is read by no part of a step (spec/10_state.md R14, spec/40_step_and_resolve.md R76): the
resolution does not look at it and overwrites it before the arm runs. -/

namespace Sys2Proof.Machine

/-- The state with another value in D. -/
def State.withD (s : State) (x : Word) : State := { s with regs := { s.regs with d := x } }

theorem resolve_withD (mods : Modifiers) (off : BitVec 8) (s : State) (x : Word) :
    resolve mods off (s.withD x) = resolve mods off s := rfl

theorem resolved_withD (s : State) (x : Word) (r : Resolved) : (s.withD x).resolved r = s.resolved r := rfl

theorem takeFault_withD (func : BitVec 4) (r : Raise) (s : State) (x : Word) :
    takeFault func r (s.withD x) = (takeFault func r s).withD x := rfl

/-- Whatever D was, the same fault is taken, or the same state is reached. -/
theorem perform_withD (func : BitVec 4) (mods : Modifiers) (off : BitVec 8) (arm : State → Except Raise State)
    (s : State) (x : Word) :
    (∃ r, perform func mods off arm s = .next (takeFault func r s) ∧
      perform func mods off arm (s.withD x) = .next ((takeFault func r s).withD x)) ∨
    (∃ t, perform func mods off arm s = .next t ∧ perform func mods off arm (s.withD x) = .next t) := by
  simp only [perform, resolve_withD, resolved_withD, takeFault_withD]
  cases resolve mods off s with
  | error r => exact .inl ⟨r, rfl, rfl⟩
  | ok res =>
    dsimp only
    cases arm (s.resolved res) with
    | error r => exact .inl ⟨r, rfl, rfl⟩
    | ok u => exact .inr ⟨complete u, rfl, rfl⟩

/-- Settles O32: the two runs take the same fault, which leaves each its own D, or complete alike. -/
theorem oldDIsNoInput : Obligations.OldDIsNoInput := by
  intro i s x _
  have hd := perform_withD i.func i.mods i.off (armOf i) s x
  rw [← exec_eq_perform, ← exec_eq_perform] at hd
  rcases hd with ⟨r, hs, hs'⟩ | ⟨t, hs, hs'⟩
  · exact ⟨_, _, hs, hs', rfl, fun hrs => absurd (takeFault_rs _ _ _) hrs⟩
  · exact ⟨t, t, hs, hs', rfl, fun _ => rfl⟩

end Sys2Proof.Machine
end

section
/-! Power-on and soft reset (spec/10_state.md R26, spec/20_memory.md R39, spec/70_reset_and_hazards.md R152). -/

namespace Sys2Proof.Safety

open Sys2Proof Sys2Proof.Machine

/-- R26: the register file of both resets reads as 0 under every name. -/
theorem get_zeroRegs (r : Reg) : ({ a := 0, b := 0, c := 0, d := 0, p := 0, g := 0 } : Regs).get r = 0 := by
  cases r <;> rfl

/-- R39: a cell of Core Memory after construction. -/
theorem read_initialMemory (cfg : BlockConfig) (coreInit : Nat → Word) {a : Nat} (ha : a < cfg.coreSize) :
    (initialMemory cfg coreInit).read a = if cfg.debug then Config.sentinel else coreInit a := by
  unfold initialMemory
  split <;> rw [Memory.read_ofFn, if_pos ha]

/-- Settles O43. -/
theorem resetTable : Obligations.ResetTable := by
  refine ⟨?powerOn, ?softReset⟩
  case powerOn =>
    rintro cfg coreInit t rfl
    exact ⟨get_zeroRegs, rfl, rfl, rfl, rfl, rfl, rfl, rfl, rfl, fun a => read_initialMemory cfg coreInit⟩
  case softReset =>
    rintro s t rfl
    exact ⟨get_zeroRegs, rfl, rfl, rfl, rfl, rfl, rfl, rfl, rfl, rfl⟩

/-- Settles O38: at reset nothing is listed, nothing recorded and nothing loaded. -/
theorem resetHasBlockInv : Obligations.ResetHasBlockInv where
  cfg_wf := by decide
  mem_wf := State.reset_mem_wf
  mem_below := rfl
  record_empty _ := rfl
  record_cause := nofun
  not_outOfMemory := nofun
  not_asmSegment := nofun
  cursor_le := Nat.zero_le _

end Sys2Proof.Safety
end

section
/-! The host's port (spec/10_state.md R20, R28, R29, spec/60_exceptions.md R121, R127): the loader's write, the inspect
and the status outputs. -/

namespace Sys2Proof.Machine

theorem loaderWrite_of_inCore {s : State} {x : Word} (v : Word) (h : s.inCore x = true) :
    s.loaderWrite x v = s.memWrite x v := if_pos h

theorem loaderWrite_of_not_inCore {s : State} {x : Word} (v : Word) (h : s.inCore x = false) :
    s.loaderWrite x v = s := if_neg (by simp [h])

theorem inspect_of_inCore {s : State} {x : Word} (h : s.inCore x = true) :
    s.inspect x = some (s.mem.read x.toNat) := if_pos h

theorem inspect_of_not_inCore {s : State} {x : Word} (h : s.inCore x = false) : s.inspect x = none :=
  if_neg (by simp [h])

theorem inspectInstr_of_inCore {s : State} {x : Word} (h : s.inCore x = true) :
    s.inspectInstr x = some (decode (s.mem.read x.toNat)) := by
  rw [State.inspectInstr, inspect_of_inCore h, Option.map_some]

theorem inspectInstr_of_not_inCore {s : State} {x : Word} (h : s.inCore x = false) : s.inspectInstr x = none := by
  rw [State.inspectInstr, inspect_of_not_inCore h, Option.map_none]

/-- Settles O47, along the bounds check of the two accesses. -/
theorem hostPortEffects : Obligations.HostPortEffects := by
  intro s x v
  refine ⟨rfl, fun hout => ?outside, fun hin => ?inside⟩
  case outside =>
    have h := (inCore_false_iff s x).mpr hout
    exact ⟨loaderWrite_of_not_inCore v h, inspect_of_not_inCore h, inspectInstr_of_not_inCore h⟩
  case inside =>
    have h := (inCore_iff s x).mpr hin
    exact ⟨⟨s.memWrite x v, loaderWrite_of_inCore v h, Memory.read_write_same _ _ _,
      fun _ ha => Memory.read_write_other _ _ ha, rfl⟩, inspect_of_inCore h, inspectInstr_of_inCore h⟩

/-- R134: the event is a dump exactly when it carries a snapshot. -/
theorem isDump_iff (e : Option Event) : isDump e = true ↔ ∃ r, e = some (.dump r) := by
  rcases e with _ | ⟨r | _ | _⟩ <;> simp [isDump]

/-- Settles O48. -/
theorem statusOutputCodes : Obligations.StatusOutputCodes :=
  ⟨rfl, rfl, fun _ => ⟨rfl, rfl, rfl, rfl, rfl, rfl, isDump_iff _, decide_eq_true_iff, decide_eq_true_iff⟩⟩

end Sys2Proof.Machine
end

section
/-! A step request, branch by branch of its checks (spec/40_step_and_resolve.md R70 to R75). -/

namespace Sys2Proof.Machine

/-- R71: a request while the block is stopped. -/
theorem step_of_stopped {s : State} (hw : s.cfg.wf = true) (hrs : s.rs ≠ .running) : step s = .next (idle s) := by
  simp [step, hw, hrs]

/-- R72, R73: a request that an entry check refuses. -/
theorem step_of_entryCheck_error {s : State} {r : Raise} (hw : s.cfg.wf = true) (hrs : s.rs = .running)
    (he : entryCheck s = .error r) : step s = .next (takeFault 0 r s) := by
  simp [step, hw, hrs, fetchInstr, he]

/-- R74, R75: a request behind the entry checks. -/
theorem step_of_entryCheck_ok {s : State} (hw : s.cfg.wf = true) (hrs : s.rs = .running)
    (he : entryCheck s = .ok ()) : step s = exec (decode (s.memRead s.regs.c)) s := by
  simp [step, hw, hrs, fetchInstr, he]

end Sys2Proof.Machine
end

section
/-! The bound of Core Memory (spec/20_memory.md R37): no access of a step reaches past `coreSize`. Said of every part of
a step on a state and on the same state with another memory that agrees with its own below `coreSize`. -/

namespace Sys2Proof.Machine

open Sys2Proof.Safety

/-- R30: the two memories hold the same words at every address below `n`. -/
def Memory.AgreeBelow (n : Nat) (m m' : Memory) : Prop := ∀ a, a < n → m.read a = m'.read a

/-- The same write to both keeps the agreement. -/
theorem Memory.AgreeBelow.write {n : Nat} {m m' : Memory} (h : Memory.AgreeBelow n m m') (a : Nat) (v : Word) :
    Memory.AgreeBelow n (m.write a v) (m'.write a v) := by
  intro b hb
  by_cases hab : b = a
  · rw [hab, Memory.read_write_same, Memory.read_write_same]
  · rw [Memory.read_write_other m v hab, Memory.read_write_other m' v hab, h b hb]

/-- The state with another Core Memory. -/
def State.withMem (s : State) (m : Memory) : State := { s with mem := m }

@[simp] theorem advancedPc_withMem (mods : Modifiers) (s : State) (m : Memory) :
    advancedPc mods (s.withMem m) = advancedPc mods s := rfl

@[simp] theorem resolved_withMem (s : State) (m : Memory) (r : Resolved) :
    (s.withMem m).resolved r = (s.resolved r).withMem m := rfl

/-- R72: the entry checks are the fetch's bounds check. -/
theorem inCore_of_entryCheck_ok {s : State} (h : entryCheck s = .ok ()) : s.inCore s.regs.c = true := by
  rcases entryCheck_cases s with ⟨_, h'⟩ | ⟨_, _, _, h'⟩ | ⟨hin, _, _⟩
  · cases h.symm.trans h'
  · cases h.symm.trans h'
  · exact hin

/-- R37: a read that passes the bounds checker sees only what lies below `coreSize`. -/
theorem memRead_withMem {s : State} {m : Memory} {x : Word} (h : m.AgreeBelow s.cfg.coreSize s.mem)
    (hx : s.inCore x = true) : (s.withMem m).memRead x = s.memRead x :=
  h x.toNat ((inCore_iff s x).mp hx)

/-- R77 to R79: the only read of the first three stages is the literal's. -/
theorem pointerAddress_withMem {mods : Modifiers} {s : State} {m : Memory} (off : BitVec 8)
    (h : m.AgreeBelow s.cfg.coreSize s.mem) (hlit : mods.db = true → s.inCore (postFetchPc s) = true) :
    pointerAddress mods off (s.withMem m) = pointerAddress mods off s := by
  have hbase : baseAddress mods off (s.withMem m) = baseAddress mods off s := by
    unfold baseAddress
    split
    · next hdb => exact memRead_withMem h (hlit hdb)
    · rfl
  exact congrArg (fun ea => addGlobal mods s (addFrame mods s ea)) hbase

/-- R80: the only read of the fourth stage is the pointer's. -/
theorem effectiveAddress_withMem {mods : Modifiers} {off : BitVec 8} {s : State} {m : Memory}
    (h : m.AgreeBelow s.cfg.coreSize s.mem) (hr : Resolvable mods off s) :
    effectiveAddress mods off (s.withMem m) = effectiveAddress mods off s := by
  obtain ⟨hlit, hptr⟩ := hr
  unfold effectiveAddress dereference
  rw [pointerAddress_withMem off h fun hdb => (inCore_iff _ _).mpr (hlit hdb)]
  split
  · next hib => exact memRead_withMem h ((inCore_iff _ _).mpr (hptr hib))
  · rfl

/-- R76, R37: each bounds check is made before the read it guards, so the resolution faults alike or resolves alike. -/
theorem resolve_withMem (mods : Modifiers) (off : BitVec 8) {s : State} {m : Memory}
    (h : m.AgreeBelow s.cfg.coreSize s.mem) : resolve mods off (s.withMem m) = resolve mods off s := by
  unfold resolve
  refine ite_congr rfl (fun _ => rfl) fun hpass => ?_
  have hlit : mods.db = true → s.inCore (postFetchPc s) = true := by simpa using hpass
  rw [pointerAddress_withMem off h hlit]
  refine ite_congr rfl (fun _ => rfl) fun hpass' => ?_
  have hptr : mods.ib = true → s.inCore (pointerAddress mods off s) = true := by simpa using hpass'
  have hr : Resolvable mods off s :=
    ⟨fun hdb => (inCore_iff _ _).mp (hlit hdb), fun hib => (inCore_iff _ _).mp (hptr hib)⟩
  rw [effectiveAddress_withMem h hr, advancedPc_withMem]

/-- R31, R92, R100: the memory an arm that goes through leaves, from the memory it finds. -/
def armWrites : Instr → State → Memory → Memory
  | .store _ _, s, m => m.write s.regs.d.toNat s.regs.a
  | .call _ _, s, m => (m.write (frameAddress s).toNat s.regs.p).write (frameAddress s + 1).toNat s.regs.c
  | _, _, m => m

theorem armWrites_agreeBelow (i : Instr) (s : State) {n : Nat} {m m' : Memory} (h : Memory.AgreeBelow n m m') :
    Memory.AgreeBelow n (armWrites i s m) (armWrites i s m') := by
  cases i with
  | store => exact h.write _ _
  | call => exact (h.write _ _).write _ _
  | _ => exact h

/-- No arm reads Core Memory: on another memory it raises the same or leaves the same state but for the memory. -/
theorem armOf_withMem (i : Instr) (s : State) (m : Memory) :
    armOf i (s.withMem m) = (armOf i s).map (fun t => t.withMem (armWrites i s m)) := by
  cases i with
  | store =>
    have hin : (s.withMem m).inCore (s.withMem m).regs.d = s.inCore s.regs.d := rfl
    simp only [armOf, storeArm, hin]
    split <;> rfl
  | call =>
    have hin : frameInCore (s.withMem m) (frameAddress (s.withMem m)) = frameInCore s (frameAddress s) := rfl
    simp only [armOf, callArm, hin]
    split <;> rfl
  | jmpt =>
    have hz : accNonzero (s.withMem m) = accNonzero s := rfl
    simp only [armOf, jmptArm, hz]
    split <;> rfl
  | jmpf =>
    have hz : accZero (s.withMem m) = accZero s := rfl
    simp only [armOf, jmpfArm, hz]
    split <;> rfl
  | _ => rfl

theorem armOf_ok_mem {i : Instr} {s t : State} (h : armOf i s = .ok t) : t.mem = armWrites i s s.mem := by
  have hself := armOf_withMem i s s.mem
  rw [show s.withMem s.mem = s from rfl, h] at hself
  exact congrArg State.mem (Except.ok.inj hself)

/-- An instruction answers the same on both memories, but for the memory, and these agree again. -/
theorem exec_withMem {i : Instr} {s t : State} {m : Memory} (h : m.AgreeBelow s.cfg.coreSize s.mem)
    (hx : exec i s = .next t) :
    ∃ m', exec i (s.withMem m) = .next (t.withMem m') ∧ m'.AgreeBelow s.cfg.coreSize t.mem := by
  rw [exec_eq_perform] at hx ⊢
  simp only [perform, resolve_withMem _ _ h, resolved_withMem, armOf_withMem] at hx ⊢
  cases hres : resolve i.mods i.off s with
  | error r =>
    simp only [hres] at hx
    cases hx
    exact ⟨m, rfl, h⟩
  | ok r =>
    simp only [hres] at hx
    cases harm : armOf i (s.resolved r) with
    | error r' =>
      simp only [harm, Except.map] at hx ⊢
      cases hx
      exact ⟨m, rfl, h⟩
    | ok u =>
      simp only [harm, Except.map] at hx ⊢
      cases hx
      refine ⟨armWrites i (s.resolved r) m, rfl, ?_⟩
      rw [complete_mem, armOf_ok_mem harm]
      exact armWrites_agreeBelow i _ h

/-- A step request answers the same on both memories, but for the memory, and these agree again. -/
theorem step_withMem {s t : State} {m : Memory} (h : m.AgreeBelow s.cfg.coreSize s.mem) (hstep : step s = .next t) :
    ∃ m', step (s.withMem m) = .next (t.withMem m') ∧ m'.AgreeBelow s.cfg.coreSize t.mem := by
  have hw := cfg_wf_of_step hstep
  rcases step_cases hw with ⟨hrs, hs⟩ | ⟨r, hrs, he, hs⟩ | ⟨hrs, he, hs⟩ <;> rw [hs] at hstep
  case inl =>
    cases hstep
    exact ⟨m, step_of_stopped (s := s.withMem m) hw hrs, h⟩
  case inr.inl =>
    cases hstep
    exact ⟨m, step_of_entryCheck_error (s := s.withMem m) hw hrs he, h⟩
  case inr.inr =>
    have hfetch : (s.withMem m).memRead s.regs.c = s.memRead s.regs.c :=
      memRead_withMem h (inCore_of_entryCheck_ok he)
    obtain ⟨m', hx, h'⟩ := exec_withMem h hstep
    refine ⟨m', ?_, h'⟩
    rw [step_of_entryCheck_ok (s := s.withMem m) hw hrs he, ← hx]
    exact congrArg (fun w => exec (decode w) (s.withMem m)) hfetch

/-- R37: the bounds checks of `store` and `call` keep the writes of an arm below `coreSize`. -/
theorem armOf_ok_read_outside {i : Instr} {s t : State} (hw : s.cfg.wf = true) (h : armOf i s = .ok t) {a : Nat}
    (ha : s.cfg.coreSize ≤ a) : t.mem.read a = s.mem.read a := by
  rcases (armOf_ok h).mem with hmem | ⟨_, hin, hmem⟩ | ⟨_, hin, hmem⟩ <;> rw [hmem]
  case inr.inl =>
    have hd := (inCore_iff _ _).mp hin
    exact Memory.read_write_other _ _ (by omega)
  case inr.inr =>
    have hfa := (frameInCore_iff _ _).mp hin
    have hsucc := toNat_succ_of_lt hw hfa
    rw [Memory.read_write_other _ _ (by omega), Memory.read_write_other _ _ (by omega)]

theorem exec_read_outside {i : Instr} {s t : State} (hw : s.cfg.wf = true) (hx : exec i s = .next t) {a : Nat}
    (ha : s.cfg.coreSize ≤ a) : t.mem.read a = s.mem.read a := by
  rcases exec_cases hx with ⟨r, _, rfl⟩ | ⟨r, _, _, rfl⟩ | ⟨u, _, harm, rfl⟩
  · rfl
  · rfl
  · exact armOf_ok_read_outside (s := s.resolved _) hw harm ha

theorem step_read_outside {s t : State} (hstep : step s = .next t) {a : Nat} (ha : s.cfg.coreSize ≤ a) :
    t.mem.read a = s.mem.read a := by
  have hw := cfg_wf_of_step hstep
  rcases step_cases hw with ⟨_, hs⟩ | ⟨r, _, _, hs⟩ | ⟨_, _, hs⟩ <;> rw [hs] at hstep
  · cases hstep
    rfl
  · cases hstep
    rfl
  · exact exec_read_outside hw hstep ha

/-- Settles O34: every write of a step passes the bounds checker, and so does every read. -/
theorem onlyCoreMemoryMatters : Obligations.OnlyCoreMemoryMatters := by
  intro s t m _ h hstep
  obtain ⟨m', hstep', h'⟩ := step_withMem h hstep
  exact ⟨fun a => step_read_outside hstep, t.withMem m', hstep', h', rfl⟩

end Sys2Proof.Machine
end

section
/-! Self-modifying code (spec/20_memory.md R42, R44): what a completed store leaves, and the fetch behind it. -/

namespace Sys2Proof.Machine

open Sys2Proof.Safety

theorem storeArm_ok {s t : State} (h : storeArm s = .ok t) :
    s.inCore s.regs.d = true ∧ t = s.memWrite s.regs.d s.regs.a := by
  unfold storeArm at h
  split at h
  · next hin =>
    cases h
    exact ⟨hin, rfl⟩
  · cases h

/-- R92: a store that does not fault found its target in Core Memory and wrote A there. -/
theorem exec_store_completed {mods : Modifiers} {off : BitVec 8} {s t : State}
    (hx : exec (.store mods off) s = .next t) (hrs : t.rs ≠ .faulted) :
    s.inCore (effectiveAddress mods off s) = true ∧
    t = complete ((s.resolved { pc := advancedPc mods s, ea := effectiveAddress mods off s }).memWrite
      (effectiveAddress mods off s) s.regs.a) := by
  rcases exec_cases hx with ⟨r, _, rfl⟩ | ⟨r, _, _, rfl⟩ | ⟨u, _, harm, rfl⟩
  · exact absurd (takeFault_rs _ _ _) hrs
  · exact absurd (takeFault_rs _ _ _) hrs
  · obtain ⟨hin, rfl⟩ := storeArm_ok harm
    exact ⟨hin, rfl⟩

/-- Settles O35: behind the store C is the store's target, so the entry check passes and the fetch reads A. -/
theorem storeIsSeenByTheNextFetch : Obligations.StoreIsSeenByTheNextFetch := by
  intro mods off s t hw _ hx hrs htarget hbudget
  obtain ⟨hin, ht⟩ := exec_store_completed hx (by simp [hrs])
  have hcfg : t.cfg = s.cfg := (exec_sameHostOwned hx).cfg
  have hc : t.regs.c = effectiveAddress mods off s := by
    rw [htarget, ← advancedPc_eq_nextInstr, ht]
    rfl
  have hfetch : t.memRead t.regs.c = s.regs.a := by
    rw [State.memRead, hc, ht, complete_mem, memWrite_mem, Memory.read_write_same]
  have hcore : t.regs.c.toNat < t.cfg.coreSize := by
    rw [hc, hcfg]
    exact (inCore_iff _ _).mp hin
  rw [step_of_entryCheck_ok (hcfg ▸ hw) hrs (entryCheck_ok hcore hbudget), hfetch]

end Sys2Proof.Machine
end

section
/-! The fields of an instruction word as numbers, and the decoder by its fields (spec/30_encoding.md R50, R51): a word is
the sum of its fields with their weights, and a well-formed instruction is what any word with its fields decodes to. -/

namespace Sys2Proof

/-- R50: `w[15:12]`. -/
theorem toNat_wordFunc (w : Word) : (wordFunc w).toNat = w.toNat / 4096 := by
  have hw := w.isLt
  rw [wordFunc, BitVec.extractLsb'_toNat, Nat.shiftRight_eq_div_pow]
  omega

/-- R50: `w[7:0]`. -/
theorem toNat_wordOff (w : Word) : (wordOff w).toNat = w.toNat % 256 := by
  rw [wordOff, BitVec.extractLsb'_toNat, Nat.shiftRight_zero]

/-- R50: one bit of a word, as a number. -/
theorem getLsbD_eq_decide (w : Word) (j : Nat) : w.getLsbD j = decide (w.toNat / 2 ^ j % 2 = 1) :=
  Nat.testBit_eq_decide_div_mod_eq

/-- R50: `w[11]`, `w[10]`, `w[9]`, `w[8]`. -/
theorem wordMods_eq (w : Word) :
    wordMods w =
      { db := decide (w.toNat / 2048 % 2 = 1), pb := decide (w.toNat / 1024 % 2 = 1)
        gb := decide (w.toNat / 512 % 2 = 1), ib := decide (w.toNat / 256 % 2 = 1) } := by
  simp only [wordMods, getLsbD_eq_decide, Nat.reducePow]

/-- Settles O1. -/
theorem decodeSlicesTheSixFields : Obligations.DecodeSlicesTheSixFields := by
  intro w
  obtain ⟨hfunc, hmods, hoff, _⟩ := decode_fields w
  rw [hfunc, hmods, hoff, wordMods_eq]
  exact ⟨toNat_wordFunc w, rfl, rfl, rfl, rfl, toNat_wordOff w⟩

theorem toNat_decide_mod_two (n : Nat) : (decide (n % 2 = 1)).toNat = n % 2 := by
  rcases Nat.mod_two_eq_zero_or_one n with h | h <;> rw [h] <;> rfl

/-- R51: "the six fields partition the sixteen bits". -/
theorem toNat_eq_sum_fields (w : Word) :
    w.toNat = (wordFunc w).toNat * 4096 + (wordMods w).db.toNat * 2048 + (wordMods w).pb.toNat * 1024
      + (wordMods w).gb.toNat * 512 + (wordMods w).ib.toNat * 256 + (wordOff w).toNat := by
  simp only [wordMods_eq, toNat_wordFunc, toNat_wordOff, toNat_decide_mod_two]
  omega

theorem word_eq_of_fields {w v : Word} (hfunc : wordFunc w = wordFunc v) (hmods : wordMods w = wordMods v)
    (hoff : wordOff w = wordOff v) : w = v := by
  apply BitVec.eq_of_toNat_eq
  rw [toNat_eq_sum_fields w, toNat_eq_sum_fields v, hfunc, hmods, hoff]

/-- R50, R55: a word with the fields of a well-formed instruction decodes to that instruction. -/
theorem decode_of_fields {w : Word} {i : Instr} (hwf : i.wf = true) (hfunc : wordFunc w = i.func)
    (hmods : wordMods w = i.mods) (hoff : wordOff w = i.off) : decode w = i := by
  unfold decode
  rw [hfunc, hmods, hoff]
  cases i
  case unknown10to11 func mods off =>
    rcases of_decide_eq_true hwf with h | h <;> simp only [Instr.func, h] <;> rfl
  case unknown12to15 func mods off =>
    have hlow : 12 ≤ func.toNat := of_decide_eq_true hwf
    have hhigh := func.isLt
    obtain h | h | h | h : func.toNat = 12 ∨ func.toNat = 13 ∨ func.toNat = 14 ∨ func.toNat = 15 := by omega
    all_goals simp only [Instr.func, h]; rfl
  all_goals rfl

theorem decode_encode {i : Instr} (hwf : i.wf = true) : decode (encode i) = i :=
  have ⟨hfunc, hmods, hoff⟩ := Laws.EncodedFields.of_packWord i
  decode_of_fields hwf hfunc hmods hoff

theorem encode_decode (w : Word) : encode (decode w) = w := by
  obtain ⟨hfunc, hmods, hoff⟩ := Laws.EncodedFields.of_packWord (decode w)
  obtain ⟨hfunc', hmods', hoff', _⟩ := decode_fields w
  exact word_eq_of_fields (hfunc.trans hfunc') (hmods.trans hmods') (hoff.trans hoff')

/-- Settles O2: the packing sum is `toNat_eq_sum_fields` of the packed word, whose fields are the instruction's. -/
theorem decodeAndEncodeAreInverse : Obligations.DecodeAndEncodeAreInverse := by
  refine ⟨fun _ => decode_encode, fun w => ⟨?wf, encode_decode w⟩, fun i => ?sum⟩
  case wf =>
    obtain ⟨_, _, _, hwf⟩ := decode_fields w
    exact hwf
  case sum =>
    obtain ⟨hfunc, hmods, hoff⟩ := Laws.EncodedFields.of_packWord i
    rw [toNat_eq_sum_fields (encode i), hfunc, hmods, hoff]

/-- Settles O4. -/
theorem sampleWordsDecode : Obligations.SampleWordsDecode :=
  ⟨rfl, rfl, rfl, rfl, rfl, rfl, rfl⟩

end Sys2Proof
end

section
/-! The opcode map by match and mask (spec/30_encoding.md R55, spec/43_system.md R113): a mask of the top four bits
speaks of the function code alone, and the function code decides the row. -/

namespace Sys2Proof

/-- A mask of the top four bits keeps of a word what it keeps of the function code. -/
theorem and_mask_eq_iff (w : Word) (mask value : BitVec 4) :
    w &&& (mask ++ 0#12) = value ++ 0#12 ↔ wordFunc w &&& mask = value := by
  have hsplit : w &&& (mask ++ 0#12) = (wordFunc w &&& mask) ++ 0#12 := by
    apply BitVec.eq_of_getLsbD_eq
    intro j hj
    rw [BitVec.getLsbD_and, BitVec.getLsbD_append, BitVec.getLsbD_append]
    by_cases hlow : j < 12
    · simp [hlow]
    · have hj' : 12 + (j - 12) = j := by omega
      have hfield : j - 12 < 4 := by omega
      simp [hlow, wordFunc, hj', hfield, -BitVec.getLsbD_eq_getElem]
  rw [hsplit, BitVec.append_left_inj]

/-- R55: the constructor `mk` is the row of the function code `n`, whatever the modifiers and the offset. -/
def IsRowOf (n : BitVec 4) (mk : Modifiers → BitVec 8 → Instr) : Prop :=
  ∀ mods off, (mk mods off).wf = true ∧ (mk mods off).func = n ∧ (mk mods off).mods = mods ∧ (mk mods off).off = off

/-- R55: a word is in the row of a function exactly when its top four bits are the function's code. -/
theorem exists_decode_eq_iff_mask (n : BitVec 4) (mk : Modifiers → BitVec 8 → Instr) (w : Word) (hrow : IsRowOf n mk) :
    (∃ m o, decode w = mk m o) ↔ w &&& (0xF#4 ++ 0#12) = n ++ 0#12 := by
  rw [and_mask_eq_iff, show 0xF#4 = BitVec.allOnes 4 from rfl, BitVec.and_allOnes]
  constructor
  · rintro ⟨m, o, h⟩
    obtain ⟨hfunc, _⟩ := decode_fields w
    obtain ⟨_, hn, _⟩ := hrow m o
    rw [← hfunc, h, hn]
  · intro h
    obtain ⟨hwf, hfunc, hmods, hoff⟩ := hrow (wordMods w) (wordOff w)
    exact ⟨_, _, decode_of_fields hwf (h.trans hfunc.symm) hmods.symm hoff.symm⟩

/-- R113: the constructor `mk`, which holds its code, is the row of the codes that match `value` under `mask`. -/
def IsRowOfCodes (mask value : BitVec 4) (mk : BitVec 4 → Modifiers → BitVec 8 → Instr) : Prop :=
  ∀ func mods off, ((mk func mods off).wf = true ↔ func &&& mask = value) ∧ (mk func mods off).func = func ∧
    (mk func mods off).mods = mods ∧ (mk func mods off).off = off

theorem isRowOfCodes_unknown10to11 : IsRowOfCodes 0xE 0xA .unknown10to11 := by
  have hcodes : ∀ func : BitVec 4, (func.toNat = 10 ∨ func.toNat = 11) ↔ func &&& 0xE = 0xA := by decide
  exact fun func _ _ => ⟨decide_eq_true_iff.trans (hcodes func), rfl, rfl, rfl⟩

theorem isRowOfCodes_unknown12to15 : IsRowOfCodes 0xC 0xC .unknown12to15 := by
  have hcodes : ∀ func : BitVec 4, 12 ≤ func.toNat ↔ func &&& 0xC = 0xC := by decide
  exact fun func _ _ => ⟨decide_eq_true_iff.trans (hcodes func), rfl, rfl, rfl⟩

/-- R113: a word is in a row of unknown codes exactly when its top four bits match. -/
theorem exists_decode_eq_iff_mask_of_codes {mask value : BitVec 4} {mk : BitVec 4 → Modifiers → BitVec 8 → Instr}
    (hrow : IsRowOfCodes mask value mk) (w : Word) :
    (∃ f m o, decode w = mk f m o) ↔ w &&& (mask ++ 0#12) = value ++ 0#12 := by
  rw [and_mask_eq_iff]
  constructor
  · rintro ⟨f, m, o, h⟩
    obtain ⟨hfunc, _, _, hwf⟩ := decode_fields w
    obtain ⟨hcodes, hf, _⟩ := hrow f m o
    rw [h] at hfunc hwf
    rw [← hfunc, hf]
    exact hcodes.mp hwf
  · intro h
    obtain ⟨hcodes, hfunc, hmods, hoff⟩ := hrow (wordFunc w) (wordMods w) (wordOff w)
    exact ⟨_, _, _, decode_of_fields (hcodes.mpr h) hfunc.symm hmods.symm hoff.symm⟩

/-- Settles O3: each match and each mask is four bits of the function code followed by twelve zeros. -/
theorem opcodeMapByMask : Obligations.OpcodeMapByMask := by
  intro w
  have row := fun n mk => exists_decode_eq_iff_mask n mk w
  refine ⟨row 0 .load ?_, row 1 .add ?_, row 2 .store ?_, row 3 .call ?_, row 4 .jmp ?_, row 5 .jmpt ?_,
    row 6 .jmpf ?_, row 7 .dump ?_, row 8 .exop ?_, row 9 .halt ?_,
    exists_decode_eq_iff_mask_of_codes isRowOfCodes_unknown10to11 w,
    exists_decode_eq_iff_mask_of_codes isRowOfCodes_unknown12to15 w⟩
  all_goals exact fun _ _ => ⟨rfl, rfl, rfl, rfl⟩

end Sys2Proof
end

section
/-! The inline offset beside a literal (spec/30_encoding.md R53, R56): with the D-bit set the resolution does not look at
it, and no arm ever does. -/

namespace Sys2Proof

/-- The instruction with another inline offset. -/
def Instr.withOff (off : BitVec 8) : Instr → Instr
  | .load mods _ => .load mods off
  | .add mods _ => .add mods off
  | .store mods _ => .store mods off
  | .call mods _ => .call mods off
  | .jmp mods _ => .jmp mods off
  | .jmpt mods _ => .jmpt mods off
  | .jmpf mods _ => .jmpf mods off
  | .dump mods _ => .dump mods off
  | .exop mods _ => .exop mods off
  | .halt mods _ => .halt mods off
  | .unknown10to11 func mods _ => .unknown10to11 func mods off
  | .unknown12to15 func mods _ => .unknown12to15 func mods off

@[simp] theorem withOff_wf (off : BitVec 8) (i : Instr) : (i.withOff off).wf = i.wf := by cases i <;> rfl

@[simp] theorem withOff_func (off : BitVec 8) (i : Instr) : (i.withOff off).func = i.func := by cases i <;> rfl

@[simp] theorem withOff_mods (off : BitVec 8) (i : Instr) : (i.withOff off).mods = i.mods := by cases i <;> rfl

@[simp] theorem withOff_off (off : BitVec 8) (i : Instr) : (i.withOff off).off = off := by cases i <;> rfl

/-- Words that agree in all fields but the offset decode to one instruction with two offsets. -/
theorem decode_eq_withOff {w v : Word} (hfunc : wordFunc v = wordFunc w) (hmods : wordMods v = wordMods w) :
    decode v = (decode w).withOff (wordOff v) := by
  obtain ⟨hf, hm, _, hwf⟩ := decode_fields w
  apply decode_of_fields
  · rw [withOff_wf, hwf]
  · rw [withOff_func, hf, hfunc]
  · rw [withOff_mods, hm, hmods]
  · rw [withOff_off]

/-- R50: the bits 15:8 hold the function code and the modifiers. -/
theorem wordFunc_eq_of_high_eq {w v : Word} (h : w.toNat / 256 = v.toNat / 256) : wordFunc w = wordFunc v := by
  apply BitVec.eq_of_toNat_eq
  rw [toNat_wordFunc, toNat_wordFunc]
  omega

theorem wordMods_eq_of_high_eq {w v : Word} (h : w.toNat / 256 = v.toNat / 256) : wordMods w = wordMods v := by
  have hdb : w.toNat / 2048 = v.toNat / 2048 := by omega
  have hpb : w.toNat / 1024 = v.toNat / 1024 := by omega
  have hgb : w.toNat / 512 = v.toNat / 512 := by omega
  rw [wordMods_eq, wordMods_eq, hdb, hpb, hgb, h]

namespace Machine

/-- R53: with the D-bit set the base address is the literal, and the resolution looks at the offset nowhere else. -/
theorem resolve_of_db {mods : Modifiers} (hd : mods.db = true) (off off' : BitVec 8) (s : State) :
    resolve mods off s = resolve mods off' s := by
  have hbase : baseAddress mods off s = baseAddress mods off' s := by simp only [baseAddress, hd, if_true]
  have hptr : pointerAddress mods off s = pointerAddress mods off' s := by rw [pointerAddress, hbase, pointerAddress]
  have hea : effectiveAddress mods off s = effectiveAddress mods off' s := by
    rw [effectiveAddress, hptr, effectiveAddress]
  unfold resolve
  rw [hptr, hea]

theorem armOf_withOff (off : BitVec 8) (i : Instr) : armOf (i.withOff off) = armOf i := by cases i <;> rfl

theorem exec_withOff (off : BitVec 8) {i : Instr} (hd : i.mods.db = true) (s : State) :
    exec (i.withOff off) s = exec i s := by
  rw [exec_eq_perform, exec_eq_perform, withOff_func, withOff_mods, armOf_withOff, perform, perform,
    resolve_of_db hd _ i.off]

/-- Settles O5. -/
theorem offsetIsIgnoredWithTheDBit : Obligations.OffsetIsIgnoredWithTheDBit := by
  intro w₁ w₂ s hhigh hbit
  have hd : (decode w₁).mods.db = true := by
    obtain ⟨_, hmods, _⟩ := decode_fields w₁
    rw [hmods]
    exact hbit
  rw [decode_eq_withOff (wordFunc_eq_of_high_eq hhigh).symm (wordMods_eq_of_high_eq hhigh).symm, exec_withOff _ hd]

end Machine

end Sys2Proof
end

section
/-! The words of one instruction of a program text (spec/30_encoding.md R64, R65, R67). -/

namespace Sys2Proof.Machine

theorem lettersMods_db (ms : List ModLetter) : (lettersMods ms).db = true ↔ .d ∈ ms := List.contains_iff_mem

theorem lettersMods_reverse (ms : List ModLetter) : lettersMods ms.reverse = lettersMods ms := by
  simp only [lettersMods, List.contains_reverse]

/-- R64: modifier letters that do not repeat are accumulated, the last in front. -/
theorem emit_modifiers {ms acc : List ModLetter} (hnodup : ms.Nodup) (hnew : ∀ m ∈ ms, m ∉ acc) (rest : List Token) :
    emit acc (ms.map Token.modifier ++ rest) = emit (ms.reverse ++ acc) rest := by
  induction ms generalizing acc with
  | nil => rfl
  | cons m ms ih =>
    obtain ⟨hm, hms⟩ := List.nodup_cons.mp hnodup
    have hacc : ¬ acc.contains m = true := by
      rw [List.contains_iff_mem]
      exact hnew m List.mem_cons_self
    have hnew' : ∀ x ∈ ms, x ∉ m :: acc := by
      intro x hx hxm
      rcases List.mem_cons.mp hxm with rfl | hxacc
      · exact hm hx
      · exact hnew x (List.mem_cons_of_mem _ hx) hxacc
    calc emit acc ((m :: ms).map Token.modifier ++ rest)
        = emit (m :: acc) (ms.map Token.modifier ++ rest) := if_neg hacc
      _ = emit (ms.reverse ++ m :: acc) rest := ih hms hnew'
      _ = emit ((m :: ms).reverse ++ acc) rest := by rw [List.reverse_cons, List.append_assoc, List.singleton_append]

/-- R65: a function letter with a number behind it, at the end of the program. -/
theorem emit_function_number (ms : List ModLetter) (func : BitVec 4) (n : Nat) :
    emit ms [.function func, .number n] = emitInstr func (lettersMods ms) (some n) := by
  rw [emit]
  cases emitInstr func (lettersMods ms) (some n) with
  | error e => rfl
  | ok ws => exact congrArg Except.ok (List.append_nil ws)

/-- R64, R65: one instruction is its distinct modifier letters, its function letter and its number. -/
theorem emit_instruction {ms : List ModLetter} (hnodup : ms.Nodup) (func : BitVec 4) (n : Nat) :
    emit [] (ms.map Token.modifier ++ [.function func, .number n]) = emitInstr func (lettersMods ms) (some n) := by
  rw [emit_modifiers hnodup (fun _ _ => List.not_mem_nil), List.append_nil, emit_function_number, lettersMods_reverse]

/-- R65: with the D-bit the number is the literal. -/
theorem emitInstr_of_db {mods : Modifiers} (func : BitVec 4) (n : Nat) (hd : mods.db = true) :
    emitInstr func mods (some n) = .ok [packWord func mods 0, BitVec.ofNat 16 n] :=
  if_pos hd

/-- R65, R67 (d): without the D-bit the number is the inline offset, if it fits. -/
theorem emitInstr_of_not_db {mods : Modifiers} (func : BitVec 4) (n : Nat) (hd : ¬ mods.db = true) :
    emitInstr func mods (some n) =
      if n ≤ 0xFF then .ok [packWord func mods (BitVec.ofNat 8 n)] else .error .offsetTooLarge :=
  if_neg hd

/-- Settles O50. -/
theorem assemblerEmitsOneInstruction : Obligations.AssemblerEmitsOneInstruction := by
  intro ms func n hnodup _
  rw [emit_instruction hnodup]
  refine ⟨fun hd => ?literal, fun hd hn => ?offset, fun hd hn => ?tooLarge⟩
  case literal => exact emitInstr_of_db func n ((lettersMods_db ms).mpr hd)
  case offset => rw [emitInstr_of_not_db func n (mt (lettersMods_db ms).mp hd), if_pos hn]
  case tooLarge => rw [emitInstr_of_not_db func n (mt (lettersMods_db ms).mp hd), if_neg (by omega)]

end Sys2Proof.Machine
end

section
/-! Address resolution (spec/40_step_and_resolve.md R76 to R81): the two faults and the resolved address, in arithmetic
on the state before the step. -/

namespace Sys2Proof.Machine

open Sys2Proof.Safety

/-- R77: the literal's bounds check is the first. -/
theorem resolve_of_literal_outside {mods : Modifiers} {s : State} (off : BitVec 8) (hd : mods.db = true)
    (hlit : s.inCore (postFetchPc s) = false) :
    resolve mods off s = .error { cause := .pcOutOfRange, addr := some (postFetchPc s) } := by
  simp [resolve, hd, hlit]

/-- R80: the pointer's bounds check comes behind the literal's. -/
theorem resolve_of_pointer_outside {mods : Modifiers} {off : BitVec 8} {s : State}
    (hd : mods.db = true → s.inCore (postFetchPc s) = true) (hi : mods.ib = true)
    (hptr : s.inCore (pointerAddress mods off s) = false) :
    resolve mods off s = .error { cause := .indirectAddressOutOfRange, addr := some (pointerAddress mods off s) } := by
  cases hdb : mods.db
  · simp [resolve, hdb, hi, hptr]
  · simp [resolve, hd hdb, hi, hptr]

/-- R80: the word at the pointer with the I-bit, the pointer itself without. -/
theorem effectiveAddress_eq (mods : Modifiers) (off : BitVec 8) (s : State) :
    effectiveAddress mods off s =
      if mods.ib then s.mem.read (pointerAddress mods off s).toNat else pointerAddress mods off s := rfl

/-- Settles O6: the sum of the first three stages is the pointer's address, and each clause is one outcome of the
resolution. -/
theorem addressResolutionByStages : Obligations.AddressResolutionByStages := by
  intro mods off s pc1 base ptr hpc1 hbase hptr
  subst hpc1 hbase
  obtain rfl : ptr = pointerAddress mods off s := hptr.trans (pointerAddress_eq mods off s).symm
  refine ⟨fun hd hlit => ?literal, fun hd hi hout => ?pointer, fun hd hi => ?resolved⟩
  case literal => exact resolve_of_literal_outside off hd ((inCore_false_iff _ _).mpr hlit)
  case pointer =>
    exact resolve_of_pointer_outside (fun hdb => (inCore_iff _ _).mpr (hd hdb)) hi ((inCore_false_iff _ _).mpr hout)
  case resolved =>
    rw [resolve_of_resolvable ⟨hd, hi⟩, advancedPc_eq_nextInstr, effectiveAddress_eq]
    rfl

/-- Settles O7: in each row of the table the modifier bits select the terms of the sum and the dereference. -/
theorem sixteenAddressForms : Obligations.SixteenAddressForms := by
  intro off s pc1 nn lit core hpc1 hnn hcore hlit
  subst hpc1 hnn hlit
  simp [effectiveAddress_eq, pointerAddress_eq, hcore]

end Sys2Proof.Machine
end

section
/-! A step that completes (spec/40_step_and_resolve.md R83, R84): behind the resolution, what the dispatch arm leaves. -/

namespace Sys2Proof.Machine

open Sys2Proof.Safety

/-- An instruction that does not end FAULTED went through its resolution and its arm. -/
theorem exec_completed {i : Instr} {s t : State} (h : exec i s = .next t) (ht : t.rs ≠ .faulted) :
    ∃ u, ArmFrame i (s.resolved { pc := advancedPc i.mods s, ea := effectiveAddress i.mods i.off s }) u ∧
      t = complete u := by
  rcases exec_cases h with ⟨r, _, rfl⟩ | ⟨r, _, _, rfl⟩ | ⟨u, _, harm, rfl⟩
  · exact absurd rfl ht
  · exact absurd rfl ht
  · exact ⟨u, armOf_ok harm, rfl⟩

/-- Settles O9: the resolution writes the effective address to D, and of the arms only `call`'s writes D again. -/
theorem completedStepWritesD : Obligations.CompletedStepWritesD := by
  intro i s t _ _ h ht
  obtain ⟨u, hframe, rfl⟩ := exec_completed h ht
  exact hframe.d

/-- Settles O31: the resolution advances C, and an arm that does not transfer control leaves it. -/
theorem programCounterPassesTheInstruction : Obligations.ProgramCounterPassesTheInstruction := by
  intro i s t _ _ h ht hcall hjmp hjmpt hjmpf
  obtain ⟨u, hframe, rfl⟩ := exec_completed h ht
  calc u.regs.c
      = advancedPc i.mods s := hframe.c hcall hjmp hjmpt hjmpf
    _ = nextInstr i.mods s := advancedPc_eq_nextInstr i.mods s

end Sys2Proof.Machine
end

section
/-! The checks before the instruction runs (spec/40_step_and_resolve.md R71 to R75): a stopped block, the two entry
checks, and the fetch behind them. -/

namespace Sys2Proof.Machine

open Sys2Proof.Safety

/-- R72: the program counter's check, whatever the budget. -/
theorem entryCheck_of_pc_outside {s : State} (hc : s.cfg.coreSize ≤ s.regs.c.toNat) :
    entryCheck s = .error { cause := .pcOutOfRange, addr := some s.regs.c } := by
  simp [entryCheck, (inCore_false_iff s s.regs.c).mpr hc]

/-- R73: the budget's check, behind the program counter's. -/
theorem entryCheck_of_budget_spent {s : State} (hc : s.regs.c.toNat < s.cfg.coreSize) (hd : s.cfg.debug = true)
    (hb : s.budget = 0) : entryCheck s = .error { cause := .stepBudgetExceeded, addr := none } := by
  simp [entryCheck, (inCore_iff s s.regs.c).mpr hc, hd, hb]

/-- Settles O24. -/
theorem stepRunsTheDecodedInstruction : Obligations.StepRunsTheDecodedInstruction := by
  intro i s hw hrs hc hb hi _
  rw [step_of_entryCheck_ok hw hrs (entryCheck_ok hc hb)]
  exact congrArg (fun j => exec j s) hi

/-- Settles O25. -/
theorem stepWhileStoppedDoesNothing : Obligations.StepWhileStoppedDoesNothing :=
  fun _ hw hrs => step_of_stopped hw hrs

/-- Settles O26: the fault entry of each check is the state `faultedWith` describes. -/
theorem entryChecksInOrder : Obligations.EntryChecksInOrder := by
  intro s hw hrs
  refine ⟨fun hc => ?pc, fun hc hd hb => ?budget⟩
  case pc => exact step_of_entryCheck_error hw hrs (entryCheck_of_pc_outside hc)
  case budget => exact step_of_entryCheck_error hw hrs (entryCheck_of_budget_spent hc hd hb)

end Sys2Proof.Machine
end

section
/-! Runs from a stopped block (spec/40_step_and_resolve.md R71): HALTED and FAULTED are left only by a reset. -/

namespace Sys2Proof.Safety

open Sys2Proof Sys2Proof.Machine

/-- R71: any positive number of requests does what one does. -/
theorem run_succ_of_stopped (k : Nat) {s : State} (hw : s.cfg.wf = true) (hrs : s.rs ≠ .running) :
    run (k + 1) s = .next (idle s) := by
  induction k generalizing s with
  | zero => exact run_succ (step_of_stopped hw hrs)
  | succ k ih => exact (run_succ (step_of_stopped hw hrs)).trans (ih (s := idle s) hw hrs)

/-- Settles O40. -/
theorem stoppedStaysStopped : Obligations.StoppedStaysStopped :=
  fun k _ hw hrs => run_succ_of_stopped k hw hrs

/-- R71: a run from a stopped block leaves the run state and the record. -/
theorem run_of_stopped {k : Nat} {s t : State} (hw : s.cfg.wf = true) (hrs : s.rs ≠ .running)
    (h : run k s = .next t) : t.rs = s.rs ∧ t.record = s.record := by
  cases k with
  | zero =>
    cases h
    exact ⟨rfl, rfl⟩
  | succ k =>
    rw [run_succ_of_stopped k hw hrs] at h
    cases h
    exact ⟨rfl, rfl⟩

end Sys2Proof.Safety
end

section
/-! The step budget (spec/40_step_and_resolve.md R73, spec/60_exceptions.md R125): the entry check alone raises its
fault, and a step that completes spends one. -/

namespace Sys2Proof.Safety

open Sys2Proof Sys2Proof.Machine

/-- R73: behind the entry checks an enforced budget is not spent. -/
theorem budget_ne_zero_of_entryCheck_ok {s : State} (h : entryCheck s = .ok ()) (hd : s.cfg.debug = true) :
    s.budget ≠ 0 := by
  rcases entryCheck_cases s with ⟨_, h'⟩ | ⟨_, _, _, h'⟩ | ⟨_, hb, _⟩
  · cases h.symm.trans h'
  · cases h.symm.trans h'
  · exact hb hd

/-- R125: the entry checks raise the budget's fault only when the budget is spent. -/
theorem entryCheck_error_cause_of_budget {s : State} {r : Raise} (h : entryCheck s = .error r) (hb : s.budget ≠ 0) :
    r.cause ≠ .stepBudgetExceeded := by
  rcases entryCheck_cases s with ⟨_, h'⟩ | ⟨_, _, hz, _⟩ | ⟨_, _, h'⟩
  · cases h.symm.trans h'
    nofun
  · exact absurd hz hb
  · cases h.symm.trans h'

theorem resolve_error_cause_ne_budget {mods : Modifiers} {off : BitVec 8} {s : State} {r : Raise}
    (h : resolve mods off s = .error r) : r.cause ≠ .stepBudgetExceeded := by
  rcases resolve_cases mods off s with ⟨_, _, h'⟩ | ⟨_, _, _, h'⟩ | ⟨_, h'⟩ <;> cases h.symm.trans h' <;> nofun

theorem armOf_error_cause_ne_budget {i : Instr} {s : State} {r : Raise} (h : armOf i s = .error r) :
    r.cause ≠ .stepBudgetExceeded := by
  rcases armOf_error h with ⟨_, rfl, _⟩ | ⟨_, rfl, _⟩ | ⟨rfl, _⟩ <;> nofun

/-- R125: no instruction raises the budget's fault. -/
theorem exec_keeps_cause_ne_budget {i : Instr} {s t : State} (h : exec i s = .next t)
    (hs : s.record.cause ≠ .stepBudgetExceeded) : t.record.cause ≠ .stepBudgetExceeded := by
  rcases exec_cases h with ⟨r, hres, rfl⟩ | ⟨r, _, harm, rfl⟩ | ⟨u, _, harm, rfl⟩
  · exact resolve_error_cause_ne_budget hres
  · exact armOf_error_cause_ne_budget harm
  · rw [complete_record, (armOf_ok harm).record]
    exact hs

/-- R83: an instruction that completes in a block with `debug` on spends one. -/
theorem exec_spends_budget {i : Instr} {s t : State} (hd : s.cfg.debug = true) (h : exec i s = .next t)
    (ht : t.rs ≠ .faulted) : t.budget = s.budget - 1 := by
  obtain ⟨u, hframe, rfl⟩ := exec_completed h ht
  have hcfg : u.cfg = s.cfg := hframe.cfg
  have hbudget : u.budget = s.budget := hframe.budget
  simp [spendBudget, hcfg, hd, hbudget]

/-- R73: a step request whose budget is not spent does not fault for it. -/
theorem step_keeps_cause_ne_budget {s t : State} (hb : s.budget ≠ 0) (h : step s = .next t)
    (hs : s.record.cause ≠ .stepBudgetExceeded) : t.record.cause ≠ .stepBudgetExceeded := by
  rcases step_cases (cfg_wf_of_step h) with ⟨_, hstep⟩ | ⟨r, _, he, hstep⟩ | ⟨_, _, hstep⟩ <;> rw [hstep] at h
  · cases h
    exact hs
  · cases h
    exact entryCheck_error_cause_of_budget he hb
  · exact exec_keeps_cause_ne_budget h hs

/-- R73, R83: a step request that leaves a running block with `debug` on running had a budget, and spent one of it. -/
theorem step_spends_budget {s t : State} (hrs : s.rs = .running) (hd : s.cfg.debug = true) (h : step s = .next t)
    (ht : t.rs = .running) : t.budget.toNat + 1 = s.budget.toNat := by
  rcases step_cases (cfg_wf_of_step h) with ⟨hstopped, _⟩ | ⟨r, _, _, hstep⟩ | ⟨_, he, hstep⟩
  · exact absurd hrs hstopped
  · rw [hstep] at h
    cases h
    cases ht
  · rw [hstep] at h
    have hb := budget_ne_zero_of_entryCheck_ok he hd
    have hspent := exec_spends_budget hd h (by simp [ht])
    bv_omega

/-- R73: over a run from a running block with `debug` on, the budget pays for every step while the block is running,
and no step that it pays for faults for it. -/
theorem run_budget {k : Nat} {s t : State} (hrs : s.rs = .running) (hd : s.cfg.debug = true)
    (hs : s.record.cause ≠ .stepBudgetExceeded) (h : run k s = .next t) :
    (k ≤ s.budget.toNat → t.record.cause ≠ .stepBudgetExceeded) ∧
    (t.rs = .running → t.budget.toNat + k = s.budget.toNat) := by
  induction k generalizing s with
  | zero =>
    cases h
    exact ⟨fun _ => hs, fun _ => rfl⟩
  | succ k ih =>
    obtain ⟨u, hstep, hrun⟩ := run_succ_inv h
    have hcfg : u.cfg = s.cfg := (step_sameHostOwned hstep).cfg
    have hcause : 0 < s.budget.toNat → u.record.cause ≠ .stepBudgetExceeded := fun hpos =>
      step_keeps_cause_ne_budget (by bv_omega) hstep hs
    by_cases hu : u.rs = .running
    · have hspent := step_spends_budget hrs hd hstep hu
      obtain ⟨hle, heq⟩ := ih hu (hcfg ▸ hd) (hcause (by omega)) hrun
      exact ⟨fun hk => hle (by omega), fun ht => by have := heq ht; omega⟩
    · obtain ⟨hrs', hrecord⟩ := run_of_stopped (hcfg ▸ cfg_wf_of_step hstep) hu hrun
      exact ⟨fun hk => hrecord ▸ hcause (by omega), fun ht => absurd (hrs' ▸ ht) hu⟩

/-- Settles O42: no fault is recorded in a running block, and a block still running after as many steps as its budget
meets the budget's entry check. -/
theorem budgetRunsOutExactly : Obligations.BudgetRunsOutExactly := by
  intro s t k hinv hrs hd hrun
  have hs : s.record.cause ≠ .stepBudgetExceeded := by
    rw [hinv.record_empty (by simp [hrs])]
    nofun
  have hcfg : t.cfg = s.cfg := (run_sameHostOwned hrun).cfg
  obtain ⟨hle, heq⟩ := run_budget hrs hd hs hrun
  refine ⟨hle, heq, fun hk ht hc => ?_⟩
  have hzero : t.budget = 0 := by
    have := heq ht
    bv_omega
  obtain ⟨_, hbudget⟩ := entryChecksInOrder t (hcfg ▸ hinv.cfg_wf) ht
  exact hbudget hc (hcfg ▸ hd) hzero

end Sys2Proof.Safety
end

section
/-! `load`, `add` and `store` (spec/41_load_add_store.md R90 to R93): the whole state a completed step leaves, in terms
of the state before it, and the fault of a store whose target lies outside Core Memory. -/

namespace Sys2Proof.Machine

open Sys2Proof.Safety

/-- R80: the state the arm of a resolvable instruction runs in, in terms of the next instruction's address. -/
theorem resolved_eq_nextInstr (mods : Modifiers) (off : BitVec 8) (s : State) :
    s.resolved { pc := advancedPc mods s, ea := effectiveAddress mods off s } =
      { s with
        regs := { s.regs with c := nextInstr mods s, d := effectiveAddress mods off s }
        event := none } := by
  rw [advancedPc_eq_nextInstr]
  rfl

/-- R83: an instruction whose arm goes through behind the resolution completes with what the arm leaves. -/
theorem exec_of_arm_ok (i : Instr) {s t : State} (h : Resolvable i.mods i.off s)
    (ha : armOf i { s with
        regs := { s.regs with c := nextInstr i.mods s, d := effectiveAddress i.mods i.off s }
        event := none } = .ok t) :
    exec i s = .next (complete t) :=
  exec_of_ok i h (by rw [resolved_eq_nextInstr]; exact ha)

theorem storeArm_of_inCore {s : State} (h : s.inCore s.regs.d = true) :
    storeArm s = .ok (s.memWrite s.regs.d s.regs.a) :=
  if_pos h

theorem storeArm_of_not_inCore {s : State} (h : s.inCore s.regs.d = false) :
    storeArm s = .error { cause := .storeAddressOutOfRange, addr := some s.regs.d } := by
  simp [storeArm, h]

/-- R92: the whole next state of a store whose target is a cell of Core Memory. -/
theorem exec_store_of_inCore {mods : Modifiers} {off : BitVec 8} {s : State} (h : Resolvable mods off s)
    (hin : s.inCore (effectiveAddress mods off s) = true) :
    exec (.store mods off) s = .next { s with
      regs := { s.regs with c := nextInstr mods s, d := effectiveAddress mods off s }
      mem := s.mem.write (effectiveAddress mods off s).toNat s.regs.a
      budget := budgetAfter s
      event := none } :=
  exec_of_arm_ok (.store mods off) h (storeArm_of_inCore hin)

/-- Settles O12: the written cell reads back A, and a write has no effect beyond its cell. -/
theorem storeWritesTheResolvedCell : Obligations.StoreWritesTheResolvedCell := by
  intro mods off s h hin
  exact ⟨_, exec_store_of_inCore h ((inCore_iff _ _).mpr hin), Memory.read_write_same _ _ _,
    fun _ hx => Memory.read_write_other _ _ hx, rfl⟩

/-- Settles O13: the arm raises with the target as its address, and the fault is taken in the state before the step. -/
theorem storeOutOfRangeFaults : Obligations.StoreOutOfRangeFaults := by
  intro mods off s h hout
  exact exec_of_raise (.store mods off) h (storeArm_of_not_inCore ((inCore_false_iff s _).mpr hout))

/-- Settles O10: the arm moves A to B and the address just resolved to A. -/
theorem loadShiftsTheAccumulator : Obligations.LoadShiftsTheAccumulator :=
  fun mods off _ h => exec_of_arm_ok (.load mods off) h rfl

/-- R91: the whole next state of an `add`. -/
theorem exec_add_of_resolvable {mods : Modifiers} {off : BitVec 8} {s : State} (h : Resolvable mods off s) :
    exec (.add mods off) s = .next { s with
      regs := { s.regs with
        a := s.regs.a + effectiveAddress mods off s
        c := nextInstr mods s
        d := effectiveAddress mods off s }
      budget := budgetAfter s
      event := none } :=
  exec_of_arm_ok (.add mods off) h rfl

/-- Settles O11: the sum of two words is taken modulo 2^16. -/
theorem addAddsTheResolvedAddress : Obligations.AddAddsTheResolvedAddress :=
  fun _ _ _ h => ⟨_, exec_add_of_resolvable h, BitVec.toNat_add _ _, rfl⟩

end Sys2Proof.Machine
end

section
/-! `call` and the jumps (spec/42_control_transfer.md R100 to R105): the whole state a completed transfer leaves, the
fault of a frame that does not fit, and the jump that goes back through the frame. -/

namespace Sys2Proof.Machine

open Sys2Proof.Safety

/-- Settles O17: the arm copies D, the address just resolved, to C and checks nothing. -/
theorem jmpGoesToTheResolvedAddress : Obligations.JmpGoesToTheResolvedAddress :=
  fun mods off _ h => exec_of_arm_ok (.jmp mods off) h rfl

theorem accNonzero_iff (s : State) : accNonzero s = true ↔ s.regs.a ≠ 0 :=
  decide_eq_true_iff

theorem accZero_iff (s : State) : accZero s = true ↔ s.regs.a = 0 :=
  decide_eq_true_iff

/-- R102: the arm of `jmpt` writes no register but C. -/
theorem jmptArm_eq (s : State) :
    jmptArm s = .ok { s with regs := { s.regs with c := if s.regs.a = 0 then s.regs.c else s.regs.d } } := by
  unfold jmptArm
  by_cases ha : s.regs.a = 0
  · rw [if_neg (mt (accNonzero_iff s).mp (not_not_intro ha)), if_pos ha]
  · rw [if_pos ((accNonzero_iff s).mpr ha), if_neg ha, jumpToD]

/-- R103: the arm of `jmpf` writes no register but C. -/
theorem jmpfArm_eq (s : State) :
    jmpfArm s = .ok { s with regs := { s.regs with c := if s.regs.a = 0 then s.regs.d else s.regs.c } } := by
  unfold jmpfArm
  by_cases ha : s.regs.a = 0
  · rw [if_pos ((accZero_iff s).mpr ha), if_pos ha, jumpToD]
  · rw [if_neg (mt (accZero_iff s).mp ha), if_neg ha]

/-- Settles O18: behind the resolution C is the next instruction's address, which stays where A is zero. -/
theorem jmptJumpsWhenANonzero : Obligations.JmptJumpsWhenANonzero :=
  fun mods off _ h => exec_of_arm_ok (.jmpt mods off) h (jmptArm_eq _)

/-- Settles O19: behind the resolution C is the next instruction's address, which stays where A is not zero. -/
theorem jmpfJumpsWhenAZero : Obligations.JmpfJumpsWhenAZero :=
  fun mods off _ h => exec_of_arm_ok (.jmpf mods off) h (jmpfArm_eq _)

theorem callArm_of_frameInCore {s : State} (h : frameInCore s (frameAddress s) = true) :
    callArm s = .ok { pushFrame s (frameAddress s) with
      regs := { s.regs with d := frameAddress s, p := frameAddress s, c := s.regs.a } } :=
  if_pos h

theorem callArm_of_not_frameInCore {s : State} (h : frameInCore s (frameAddress s) = false) :
    callArm s = .error { cause := .storeAddressOutOfRange, addr := some (frameAddress s) } := by
  simp [callArm, h]

/-- Settles O15: the arm raises with the frame's address, and the fault is taken in the state before the step. -/
theorem callOutOfRangeFaults : Obligations.CallOutOfRangeFaults := by
  intro mods off s fa h hfa hout
  subst hfa
  exact exec_of_raise (.call mods off) h (callArm_of_not_frameInCore ((frameInCore_false_iff s _).mpr hout))

/-- R100: the whole next state of a call whose frame lies in Core Memory. -/
theorem exec_call_of_frameInCore {mods : Modifiers} {off : BitVec 8} {s : State} {fa : Word} (h : Resolvable mods off s)
    (hfa : fa = effectiveAddress mods off s + s.regs.p) (hin : frameInCore s fa = true) :
    exec (.call mods off) s = .next { s with
      regs := { s.regs with c := s.regs.a, d := fa, p := fa }
      mem := (s.mem.write fa.toNat s.regs.p).write (fa + 1).toNat (nextInstr mods s)
      budget := budgetAfter s
      event := none } := by
  subst hfa
  exact exec_of_arm_ok (.call mods off) h (callArm_of_frameInCore hin)

/-- Settles O14: in a constructed block the two cells of a frame that fits are neighbours, so the second write leaves
the first cell. -/
theorem callBuildsTheFrame : Obligations.CallBuildsTheFrame := by
  intro mods off s fa hw h hfa hfits
  have hsucc : (fa + 1).toNat = fa.toNat + 1 := toNat_succ_of_lt hw hfits
  refine ⟨_, exec_call_of_frameInCore h hfa ((frameInCore_iff s fa).mpr hfits), ?oldP, ?returnAddress, ?frame, rfl⟩
  case oldP => rw [Memory.read_write_other _ _ (by omega), Memory.read_write_same]
  case returnAddress => rw [← hsucc, Memory.read_write_same]
  case frame =>
    intro x hx hx'
    rw [Memory.read_write_other _ _ (by omega), Memory.read_write_other _ _ hx]

/-- R100: a call that does not fault resolved its operand and found room for its frame. -/
theorem exec_call_completed {mods : Modifiers} {off : BitVec 8} {s t : State} (hx : exec (.call mods off) s = .next t)
    (ht : t.rs ≠ .faulted) :
    Resolvable mods off s ∧ (effectiveAddress mods off s + s.regs.p).toNat + 1 < s.cfg.coreSize := by
  rcases exec_cases hx with ⟨r, _, rfl⟩ | ⟨r, _, _, rfl⟩ | ⟨_, hr, _, _⟩
  · exact absurd (takeFault_rs _ _ _) ht
  · exact absurd (takeFault_rs _ _ _) ht
  · refine ⟨hr, Nat.lt_of_not_le fun hout => ht ?_⟩
    rw [callOutOfRangeFaults mods off s _ hr rfl hout] at hx
    cases hx
    rfl

/-- R105: with the literal 1, the D, P and I bits point at the second cell of the frame at P. -/
theorem pointerAddress_of_literal_one {off : BitVec 8} {s : State} (hlit : s.mem.read (s.regs.c + 1).toNat = 1) :
    pointerAddress ⟨true, true, false, true⟩ off s = s.regs.p + 1 := by
  calc pointerAddress ⟨true, true, false, true⟩ off s
      = s.mem.read (s.regs.c + 1).toNat + s.regs.p + 0 := pointerAddress_eq _ off s
    _ = s.regs.p + 1 := by rw [hlit, add_zero, add_comm]

/-- Settles O16: the jump dereferences the frame's second cell, where the call left the return address. -/
theorem returnJumpReachesTheCaller : Obligations.ReturnJumpReachesTheCaller := by
  intro mods off off' s t u hw _ hx ht hmem hcfg hp hlitIn hlit
  obtain ⟨hr, hfits⟩ := exec_call_completed hx (by simp [ht])
  obtain ⟨_, hx', _, hret, _, ht'⟩ := callBuildsTheFrame mods off s _ hw hr rfl hfits
  cases hx.symm.trans hx'
  have hfp : u.regs.p = effectiveAddress mods off s + s.regs.p := hp.trans (congrArg (·.regs.p) ht')
  have hsize : u.cfg.coreSize = s.cfg.coreSize := congrArg (·.coreSize) (hcfg.trans (congrArg (·.cfg) ht'))
  have hptr : (pointerAddress ⟨true, true, false, true⟩ off' u).toNat =
      (effectiveAddress mods off s + s.regs.p).toNat + 1 := by
    rw [pointerAddress_of_literal_one hlit, hfp, toNat_succ_of_lt hw hfits]
  have hres : Resolvable ⟨true, true, false, true⟩ off' u :=
    ⟨fun _ => hlitIn, fun _ => by rw [hptr, hsize]; exact hfits⟩
  refine ⟨_, jmpGoesToTheResolvedAddress _ off' u hres, ?_, hp⟩
  calc effectiveAddress ⟨true, true, false, true⟩ off' u
      = t.mem.read (pointerAddress ⟨true, true, false, true⟩ off' u).toNat := by rw [← hmem]; rfl
    _ = nextInstr mods s := by rw [hptr, hret]

end Sys2Proof.Machine
end

section
/-! `dump`, `exop` and `halt` (spec/43_system.md R110 to R112): the whole state the completed step leaves, in terms of the
state before it. The arms write the event and, in `halt`, RS; the registers they find are those of the resolution. -/

namespace Sys2Proof.Machine

open Sys2Proof.Safety

/-- R110: the dumped registers are those at dispatch, so C and D are the resolution's. -/
theorem dumpArm_resolved (mods : Modifiers) (off : BitVec 8) (s : State) :
    dumpArm { s with
        regs := { s.regs with c := nextInstr mods s, d := effectiveAddress mods off s }
        event := none } =
      .ok { s with
        regs := { s.regs with c := nextInstr mods s, d := effectiveAddress mods off s }
        event := some (.dump
          { a := s.regs.a
            b := s.regs.b
            c := nextInstr mods s
            d := effectiveAddress mods off s
            p := s.regs.p
            g := s.regs.g }) } :=
  rfl

/-- Settles O20: the completion behind the arm counts the budget and leaves the event. -/
theorem dumpEmitsTheRegisters : Obligations.DumpEmitsTheRegisters :=
  fun mods off s h => exec_of_arm_ok (.dump mods off) h (dumpArm_resolved mods off s)

/-- Settles O21: the arm writes the event alone and raises nothing, so the step completes. -/
theorem exopReportsUnimplemented : Obligations.ExopReportsUnimplemented :=
  fun mods off _ h => exec_of_arm_ok (.exop mods off) h rfl

/-- Settles O22: the arm writes RS and the event and raises nothing, so the step completes. -/
theorem haltStopsTheMachine : Obligations.HaltStopsTheMachine :=
  fun mods off _ h => exec_of_arm_ok (.halt mods off) h rfl

end Sys2Proof.Machine
end

section
/-! Faults (spec/60_exceptions.md R120 to R132): what the resolution raises whatever the function, the table of R130 as
the list of everything a step can raise, and the fault of a spent budget, which a soft reset does not clear. -/

namespace Sys2Proof.Machine

open Sys2Proof.Safety

/-- R128, R129: a raise of the resolution is taken before the function is looked at. -/
theorem exec_of_resolve_error {i : Instr} {s : State} {r : Raise} (h : resolve i.mods i.off s = .error r) :
    exec i s = .next (takeFault i.func r s) := by
  rw [exec_eq_perform, perform, h]

/-- Settles O8: the literal's check and, behind it, the pointer's, each taken with the function code. -/
theorem resolutionFaultsForEveryFunction : Obligations.ResolutionFaultsForEveryFunction := by
  intro i s
  refine ⟨fun hd hout => ?literal, fun hd hi hout => ?pointer⟩
  case literal =>
    exact exec_of_resolve_error (resolve_of_literal_outside i.off hd ((inCore_false_iff _ _).mpr hout))
  case pointer =>
    exact exec_of_resolve_error
      (resolve_of_pointer_outside (fun hdb => (inCore_iff _ _).mpr (hd hdb)) hi ((inCore_false_iff _ _).mpr hout))

/-- Settles O23: the arm of both rows raises without an address, so FADDR is FPC. -/
theorem unknownCodesFault : Obligations.UnknownCodesFault :=
  fun func mods off _ h =>
    ⟨exec_of_raise (.unknown10to11 func mods off) h rfl, exec_of_raise (.unknown12to15 func mods off) h rfl⟩

/-- R130: the rows of the table that an instruction raises, each under its condition in the state before the step. -/
inductive ExecRaises (i : Instr) (s : State) : Raise → Prop
  /-- R122 (b): the literal. -/
  | literal (hd : i.mods.db = true) (hout : s.cfg.coreSize ≤ (s.regs.c + 1).toNat) :
      ExecRaises i s { cause := .pcOutOfRange, addr := some (s.regs.c + 1) }
  /-- R123: the pointer. -/
  | pointer (hi : i.mods.ib = true) (hout : s.cfg.coreSize ≤ (pointerAddress i.mods i.off s).toNat) :
      ExecRaises i s { cause := .indirectAddressOutOfRange, addr := some (pointerAddress i.mods i.off s) }
  /-- R124: the target of `store`. -/
  | store (hf : i.func = 2) (hout : s.cfg.coreSize ≤ (effectiveAddress i.mods i.off s).toNat) :
      ExecRaises i s { cause := .storeAddressOutOfRange, addr := some (effectiveAddress i.mods i.off s) }
  /-- R124: the frame of `call`. -/
  | call (hf : i.func = 3) (hout : s.cfg.coreSize ≤ (effectiveAddress i.mods i.off s + s.regs.p).toNat + 1) :
      ExecRaises i s
        { cause := .storeAddressOutOfRange, addr := some (effectiveAddress i.mods i.off s + s.regs.p) }
  /-- R126: a code without a function. -/
  | unknown (hf : 10 ≤ i.func.toNat) : ExecRaises i s { cause := .unknownFunctionCode, addr := none }

/-- R130: all rows of the table, each with the function code it records. -/
inductive StepRaises (s : State) : BitVec 4 → Raise → Prop
  /-- R122 (a): the fetch. -/
  | fetch (hout : s.cfg.coreSize ≤ s.regs.c.toNat) :
      StepRaises s 0 { cause := .pcOutOfRange, addr := some s.regs.c }
  /-- R125: the budget. -/
  | budget (hd : s.cfg.debug = true) (hb : s.budget = 0) :
      StepRaises s 0 { cause := .stepBudgetExceeded, addr := none }
  /-- The instruction fetched from Core Memory. -/
  | instr {r : Raise} (hin : s.regs.c.toNat < s.cfg.coreSize) (h : ExecRaises (decode (s.memRead s.regs.c)) s r) :
      StepRaises s (decode (s.memRead s.regs.c)).func r

theorem resolve_error_execRaises {i : Instr} {s : State} {r : Raise} (h : resolve i.mods i.off s = .error r) :
    ExecRaises i s r := by
  rcases resolve_cases i.mods i.off s with ⟨hd, hout, h'⟩ | ⟨_, hi, hout, h'⟩ | ⟨_, h'⟩ <;> cases h.symm.trans h'
  · exact .literal hd ((inCore_false_iff _ _).mp hout)
  · exact .pointer hi ((inCore_false_iff _ _).mp hout)

/-- R113: the rows of unknown codes hold the codes from 10 up. -/
theorem ten_le_func_of_unknown {i : Instr} (hw : i.wf = true)
    (h : (∃ f m o, i = .unknown10to11 f m o) ∨ (∃ f m o, i = .unknown12to15 f m o)) : 10 ≤ i.func.toNat := by
  rcases h with ⟨f, _, _, rfl⟩ | ⟨f, _, _, rfl⟩ <;> simp only [Instr.wf, decide_eq_true_eq] at hw <;>
    simp only [Instr.func] <;> omega

/-- In an arm D is the effective address, and P and the bound of Core Memory are as before the step. -/
theorem armOf_error_execRaises {i : Instr} {s : State} {r : Raise} (hw : i.wf = true)
    (h : armOf i (s.resolved { pc := advancedPc i.mods s, ea := effectiveAddress i.mods i.off s }) = .error r) :
    ExecRaises i s r := by
  rcases armOf_error h with ⟨hf, rfl, hout⟩ | ⟨hf, rfl, hout⟩ | ⟨rfl, hu⟩
  · exact .store hf ((inCore_false_iff _ _).mp hout)
  · exact .call hf ((frameInCore_false_iff _ _).mp hout)
  · exact .unknown (ten_le_func_of_unknown hw hu)

/-- R112: an arm that goes through leaves RS or makes it HALTED, so a step reaches FAULTED by fault entry alone. -/
theorem exec_faulted {i : Instr} {s t : State} (hw : i.wf = true) (hs : s.rs ≠ .faulted) (h : exec i s = .next t)
    (ht : t.rs = .faulted) : ∃ r, ExecRaises i s r ∧ t = takeFault i.func r s := by
  rcases exec_cases h with ⟨r, hres, rfl⟩ | ⟨r, _, harm, rfl⟩ | ⟨u, _, harm, rfl⟩
  · exact ⟨r, resolve_error_execRaises hres, rfl⟩
  · exact ⟨r, armOf_error_execRaises hw harm, rfl⟩
  · rcases (armOf_ok harm).rs with hsame | ⟨hhalted, _⟩
    · exact absurd (hsame.symm.trans ht) hs
    · cases hhalted.symm.trans ht

theorem entryCheck_error_stepRaises {s : State} {r : Raise} (h : entryCheck s = .error r) : StepRaises s 0 r := by
  rcases entryCheck_cases s with ⟨hout, h'⟩ | ⟨_, hd, hb, h'⟩ | ⟨_, _, h'⟩ <;> cases h.symm.trans h'
  · exact .fetch ((inCore_false_iff _ _).mp hout)
  · exact .budget hd hb

/-- R129, R130: a running block reaches FAULTED by the fault entry of one row of the table. -/
theorem step_faulted {s t : State} (hs : s.rs = .running) (h : step s = .next t) (ht : t.rs = .faulted) :
    ∃ func r, StepRaises s func r ∧ t = takeFault func r s := by
  rcases step_cases (cfg_wf_of_step h) with ⟨hrs, _⟩ | ⟨r, _, he, hstep⟩ | ⟨_, he, hstep⟩
  · exact absurd hs hrs
  · cases h.symm.trans hstep
    exact ⟨0, r, entryCheck_error_stepRaises he, rfl⟩
  · obtain ⟨_, _, _, hw⟩ := decode_fields (s.memRead s.regs.c)
    obtain ⟨r, hr, rfl⟩ := exec_faulted hw (by simp [hs]) (hstep.symm.trans h) ht
    exact ⟨_, r, .instr ((inCore_iff _ _).mp (inCore_of_entryCheck_ok he)) hr, rfl⟩

theorem execRaises_isStepCause {i : Instr} {s : State} {r : Raise} (h : ExecRaises i s r) : IsStepCause r.cause := by
  cases h <;> exact ⟨nofun, nofun, nofun⟩

/-- R127: no row of the table has a cause from outside the block. -/
theorem stepRaises_isStepCause {s : State} {func : BitVec 4} {r : Raise} (h : StepRaises s func r) :
    IsStepCause r.cause := by
  cases h with
  | fetch => exact ⟨nofun, nofun, nofun⟩
  | budget => exact ⟨nofun, nofun, nofun⟩
  | instr _ h => exact execRaises_isStepCause h

/-- R125: the budget's row is the only one with its cause. -/
theorem stepRaises_budget {s : State} {func : BitVec 4} {r : Raise} (h : StepRaises s func r)
    (hc : r.cause = .stepBudgetExceeded) : s.cfg.debug = true ∧ s.budget = 0 := by
  cases h with
  | fetch => cases hc
  | budget hd hb => exact ⟨hd, hb⟩
  | instr _ h => cases h <;> cases hc

/-- Settles O28: fault entry writes RS, the record and the event, whichever row of the table raised. -/
theorem faultsArePrecise : Obligations.FaultsArePrecise := by
  intro s t hs h ht
  obtain ⟨func, r, hr, rfl⟩ := step_faulted hs h ht
  exact ⟨rfl, rfl, stepRaises_isStepCause hr⟩

/-- Settles O29, row by row of the table. -/
theorem faultRecordByCause : Obligations.FaultRecordByCause := by
  rintro s t i hs rfl h ht
  obtain ⟨func, r, hr, rfl⟩ := step_faulted hs h ht
  refine ⟨rfl, ?_⟩
  rw [takeFault_record]
  cases hr with
  | fetch hout => exact .inl ⟨hout, rfl, rfl⟩
  | budget hd hb => exact ⟨hd, hb, rfl, rfl⟩
  | instr hin h =>
    cases h with
    | literal hd hout => exact .inr ⟨hin, hd, hout, rfl, rfl⟩
    | pointer hi hout => exact ⟨hi, hout, rfl, rfl⟩
    | store hf hout => exact .inl ⟨hf, hout, rfl, hf⟩
    | call hf hout => exact .inr ⟨hf, hout, rfl, hf⟩
    | unknown hf => exact ⟨hf, rfl, rfl⟩

/-- Settles O46: neither the fault nor the soft reset writes BUDGET, and address 0 lies in every Core Memory, so the
budget's entry check is the one that fails again. -/
theorem softResetDoesNotReloadTheBudget : Obligations.SoftResetDoesNotReloadTheBudget := by
  intro s t hw hs h hc ht
  obtain ⟨func, r, hr, rfl⟩ := step_faulted hs h ht
  obtain ⟨hd, hb⟩ := stepRaises_budget hr hc
  obtain ⟨_, hbudget⟩ := entryChecksInOrder (takeFault func r s).softReset hw rfl
  exact hbudget ((cfg_wf_iff s.cfg).mp hw).1 hd hb

end Sys2Proof.Machine
end

section
/-! The debug flag and BUDGET (spec/60_exceptions.md R140 (a), spec/10_state.md R22): no part of an instruction reads
them but the completion, which writes BUDGET alone. -/

namespace Sys2Proof.Machine

/-- The state with another BUDGET and another debug flag. -/
def State.withDebug (s : State) (n : BitVec 32) (dbg : Bool) : State :=
  { s with budget := n, cfg := { s.cfg with debug := dbg } }

/-- The two states hold the same in every field that the meaning of an instruction speaks of. -/
structure SameMeaning (s t : State) : Prop where
  regs : t.regs = s.regs
  mem : t.mem = s.mem
  rs : t.rs = s.rs
  record : t.record = s.record
  event : t.event = s.event

theorem resolve_withDebug (mods : Modifiers) (off : BitVec 8) (s : State) (n : BitVec 32) (dbg : Bool) :
    resolve mods off (s.withDebug n dbg) = resolve mods off s := rfl

theorem resolved_withDebug (s : State) (n : BitVec 32) (dbg : Bool) (r : Resolved) :
    (s.withDebug n dbg).resolved r = (s.resolved r).withDebug n dbg := rfl

theorem takeFault_sameMeaning (func : BitVec 4) (r : Raise) (s : State) (n : BitVec 32) (dbg : Bool) :
    SameMeaning (takeFault func r s) (takeFault func r (s.withDebug n dbg)) := ⟨rfl, rfl, rfl, rfl, rfl⟩

/-- R83: the two completions differ in BUDGET at most. -/
theorem complete_sameMeaning (s : State) (n : BitVec 32) (dbg : Bool) :
    SameMeaning (complete s) (complete (s.withDebug n dbg)) := ⟨rfl, rfl, rfl, rfl, rfl⟩

/-- No arm reads BUDGET or the debug flag: it raises the same or leaves the same state but for the two. -/
theorem armOf_withDebug (i : Instr) (s : State) (n : BitVec 32) (dbg : Bool) :
    armOf i (s.withDebug n dbg) = (armOf i s).map (fun t => t.withDebug n dbg) := by
  cases i with
  | store =>
    have hin : (s.withDebug n dbg).inCore (s.withDebug n dbg).regs.d = s.inCore s.regs.d := rfl
    simp only [armOf, storeArm, hin]
    split <;> rfl
  | call =>
    have hin : frameInCore (s.withDebug n dbg) (frameAddress (s.withDebug n dbg)) = frameInCore s (frameAddress s) :=
      rfl
    simp only [armOf, callArm, hin]
    split <;> rfl
  | jmpt => simp only [armOf, jmptArm_eq]; rfl
  | jmpf => simp only [armOf, jmpfArm_eq]; rfl
  | _ => rfl

theorem exec_withDebug (i : Instr) (s : State) (n : BitVec 32) (dbg : Bool) :
    ∃ t t', exec i s = .next t ∧ exec i (s.withDebug n dbg) = .next t' ∧ SameMeaning t t' := by
  simp only [exec_eq_perform, perform, resolve_withDebug, resolved_withDebug, armOf_withDebug]
  cases resolve i.mods i.off s with
  | error r => exact ⟨_, _, rfl, rfl, takeFault_sameMeaning _ r s n dbg⟩
  | ok res =>
    dsimp only
    cases armOf i (s.resolved res) with
    | error r => exact ⟨_, _, rfl, rfl, takeFault_sameMeaning _ r s n dbg⟩
    | ok u => exact ⟨_, _, rfl, rfl, complete_sameMeaning u n dbg⟩

/-- Settles O33. -/
theorem debugDoesNotChangeMeanings : Obligations.DebugDoesNotChangeMeanings := by
  intro i s n dbg
  obtain ⟨t, t', hs, hs', ⟨hregs, hmem, hrs, hrecord, hevent⟩⟩ := exec_withDebug i s n dbg
  exact ⟨t, t', hs, hs', hregs, hmem, hrs, hrecord, hevent⟩

end Sys2Proof.Machine
end

section
/-! The normal end of a run (spec/43_system.md R112, spec/70_reset_and_hazards.md R159): of all that a step can do, only
the arm of `halt` leaves a running block HALTED. -/

namespace Sys2Proof.Safety

open Sys2Proof Sys2Proof.Machine

/-- R112: an instruction that halts a running block has function code 9. -/
theorem exec_halted {i : Instr} {s t : State} (hs : s.rs = .running) (h : exec i s = .next t) (ht : t.rs = .halted) :
    i.func = 9 ∧ t.event = some .halt := by
  obtain ⟨u, hframe, rfl⟩ := exec_completed h (by simp [ht])
  rcases hframe.rs with hsame | ⟨_, hfunc, hevent⟩
  · rw [complete_rs, hsame, resolved_rs, hs] at ht
    cases ht
  · exact ⟨hfunc, hevent⟩

/-- R112: a step that halts a running block ran the word at C. -/
theorem step_halted {s t : State} (hs : s.rs = .running) (h : step s = .next t) (ht : t.rs = .halted) :
    (decode (s.memRead s.regs.c)).func = 9 ∧ t.event = some .halt := by
  rcases step_cases (cfg_wf_of_step h) with ⟨hrs, _⟩ | ⟨r, _, _, hstep⟩ | ⟨_, _, hstep⟩
  · exact absurd hs hrs
  · cases h.symm.trans hstep
    cases ht
  · exact exec_halted hs (hstep.symm.trans h) ht

/-- R21: a block that halted has no fault recorded. -/
theorem BlockInv.final_of_halted {s : State} (h : BlockInv s) (hs : s.rs = .halted) : Final s :=
  ⟨hs, by rw [h.record_empty (by simp [hs])]; rfl⟩

/-- Settles O36: the step keeps the invariant, by which a block that is not FAULTED has an empty record. -/
theorem haltedIsTheNormalEnd : Obligations.HaltedIsTheNormalEnd := by
  intro s t hinv hs h ht
  obtain ⟨hfunc, hevent⟩ := step_halted hs h ht
  exact ⟨hfunc, hevent, (stepKeepsBlockInv s t hinv h).final_of_halted ht⟩

end Sys2Proof.Safety
end

section
/-! The loader (spec/70_reset_and_hazards.md R157): a load that fits is one run of neighbouring writes into Core Memory,
from the write cursor on. -/

namespace Sys2Proof.Machine

/-- The memory with the words written into neighbouring cells, the first of them at `a`. -/
def Memory.writeFrom (m : Memory) (a : Nat) : List Word → Memory
  | [] => m
  | w :: ws => (m.write a w).writeFrom (a + 1) ws

theorem Memory.read_writeFrom_outside (m : Memory) {a b : Nat} (ws : List Word) (h : b < a ∨ a + ws.length ≤ b) :
    (m.writeFrom a ws).read b = m.read b := by
  induction ws generalizing m a with
  | nil => rfl
  | cons w ws ih =>
    rw [List.length_cons] at h
    calc ((m.write a w).writeFrom (a + 1) ws).read b
      _ = (m.write a w).read b := ih _ (by omega)
      _ = m.read b := Memory.read_write_other m w (by omega)

theorem Memory.read_writeFrom_inside (m : Memory) (a : Nat) {ws : List Word} {j : Nat} {w : Word} (h : ws[j]? = some w) :
    (m.writeFrom a ws).read (a + j) = w := by
  induction ws generalizing m a j with
  | nil => cases h
  | cons v ws ih =>
    cases j with
    | zero =>
      cases h
      rw [Memory.writeFrom, Memory.read_writeFrom_outside _ _ (by omega), Nat.add_zero, Memory.read_write_same]
    | succ j =>
      rw [Memory.writeFrom, Nat.add_comm j 1, ← Nat.add_assoc]
      exact ih _ _ h

/-- R157: words that fit are written from the cursor on, and the cursor passes them. -/
theorem loadWords_of_fits {s : State} {ws : List Word} (h : s.cursor + ws.length ≤ s.cfg.coreSize) :
    s.loadWords ws = .ok { s with mem := s.mem.writeFrom s.cursor ws, cursor := s.cursor + ws.length } := by
  induction ws generalizing s with
  | nil => rfl
  | cons w ws ih =>
    rw [List.length_cons] at h
    rw [State.loadWords, if_pos (by omega), ih (show s.cursor + 1 + ws.length ≤ s.cfg.coreSize by omega),
      List.length_cons, Nat.add_assoc, Nat.add_comm 1]
    rfl

/-- R127, R157: words that would take the cursor past `coreSize` are not loaded. -/
theorem loadWords_of_overflow {s : State} {ws : List Word} (hc : s.cursor ≤ s.cfg.coreSize)
    (h : s.cfg.coreSize < s.cursor + ws.length) : s.loadWords ws = .error .segmentOutOfRange := by
  induction ws generalizing s with
  | nil => exact absurd hc (Nat.not_le_of_lt h)
  | cons w ws ih =>
    rw [List.length_cons] at h
    rw [State.loadWords]
    split
    · next hlt => exact ih hlt (show s.cfg.coreSize < s.cursor + 1 + ws.length by omega)
    · rfl

/-- Settles O49. -/
theorem loaderAppendsAtTheCursor : Obligations.LoaderAppendsAtTheCursor := by
  intro s ws hc
  refine ⟨loadWords_of_overflow hc, fun hfits => ⟨_, loadWords_of_fits hfits, ?cells, ?others, rfl⟩⟩
  case cells => exact fun j w hw => Memory.read_writeFrom_inside _ _ hw
  case others => exact fun a ha => Memory.read_writeFrom_outside _ _ ha

/-- A text that loads was assembled, and its words fit. -/
theorem loadText_ok {s t : State} {text : List Char} (hc : s.cursor ≤ s.cfg.coreSize) (h : s.loadText text = .ok t) :
    ∃ ws : List Word, s.cursor + ws.length ≤ s.cfg.coreSize ∧
      t = { s with mem := s.mem.writeFrom s.cursor ws, cursor := s.cursor + ws.length } := by
  unfold State.loadText at h
  split at h
  · cases h
  · next ws _ =>
    rcases Nat.lt_or_ge s.cfg.coreSize (s.cursor + ws.length) with hover | hfits
    · cases h.symm.trans (loadWords_of_overflow hc hover)
    · cases h.symm.trans (loadWords_of_fits hfits)
      exact ⟨ws, hfits, rfl⟩

end Sys2Proof.Machine
end

section
/-! The host's actions and the invariant of a constructed block (spec/70_reset_and_hazards.md R150, R152, R155 to
R158). -/

namespace Sys2Proof.Safety

open Sys2Proof Sys2Proof.Machine

/-- R39: Core Memory after construction is canonical and lists no cell outside it. -/
theorem initialMemory_wf_below (cfg : BlockConfig) (coreInit : Nat → Word) :
    (initialMemory cfg coreInit).wf = true ∧ (initialMemory cfg coreInit).below cfg.coreSize = true := by
  unfold initialMemory
  split <;> exact ⟨Memory.ofFn_wf _ _, Memory.ofFn_below _ _⟩

/-- R21, R26: what is left of the invariant where both resets leave RS and the record. -/
theorem blockInv_of_empty_record {s : State} (hcfg : s.cfg.wf = true)
    (hmem : s.mem.wf = true ∧ s.mem.below s.cfg.coreSize = true) (hcursor : s.cursor ≤ s.cfg.coreSize)
    (hrs : s.rs = .running) (hrecord : s.record = FaultRecord.empty) : BlockInv s where
  cfg_wf := hcfg
  mem_wf := hmem.1
  mem_below := hmem.2
  record_empty _ := hrecord
  record_cause hf := by cases hrs.symm.trans hf
  not_outOfMemory := hrecord ▸ nofun
  not_asmSegment := hrecord ▸ nofun
  cursor_le := hcursor

theorem powerOn_blockInv {cfg : BlockConfig} (coreInit : Nat → Word) (h : cfg.wf = true) :
    BlockInv (State.powerOn cfg coreInit) :=
  blockInv_of_empty_record h (initialMemory_wf_below cfg coreInit) (Nat.zero_le _) rfl rfl

theorem softReset_keeps_blockInv {s : State} (h : BlockInv s) : BlockInv s.softReset :=
  blockInv_of_empty_record h.cfg_wf ⟨h.mem_wf, h.mem_below⟩ h.cursor_le rfl rfl

theorem setG_keeps_blockInv {s : State} (v : Word) (h : BlockInv s) : BlockInv (s.setG v) :=
  h.of_fields_eq rfl rfl rfl rfl rfl

/-- Of a new memory and a new cursor the invariant asks only their own bounds. -/
theorem BlockInv.replace_mem_cursor {s : State} {m : Memory} {c : Nat} (h : BlockInv s)
    (hm : m.wf = true ∧ m.below s.cfg.coreSize = true) (hc : c ≤ s.cfg.coreSize) :
    BlockInv { s with mem := m, cursor := c } :=
  { h with mem_wf := hm.1, mem_below := hm.2, cursor_le := hc }

/-- R28, R127: a loader write passes the bounds checker or changes nothing. -/
theorem loaderWrite_keeps_blockInv {s : State} (x v : Word) (h : BlockInv s) : BlockInv (s.loaderWrite x v) := by
  cases hin : s.inCore x with
  | false =>
    rw [loaderWrite_of_not_inCore v hin]
    exact h
  | true =>
    rw [loaderWrite_of_inCore v hin]
    exact h.replace_mem_cursor (write_keeps_mem v ((inCore_iff s x).mp hin) ⟨h.mem_wf, h.mem_below⟩) h.cursor_le

theorem writeFrom_keeps_mem {m : Memory} {n a : Nat} (ws : List Word) (hfits : a + ws.length ≤ n)
    (h : m.wf = true ∧ m.below n = true) : (m.writeFrom a ws).wf = true ∧ (m.writeFrom a ws).below n = true := by
  induction ws generalizing m a with
  | nil => exact h
  | cons w ws ih =>
    rw [List.length_cons] at hfits
    exact ih (by omega) (write_keeps_mem w (by omega) h)

/-- R157: the words of a text that loads end at or below `coreSize`, and so does the cursor. -/
theorem loadText_keeps_blockInv {s t : State} {text : List Char} (h : BlockInv s) (hload : s.loadText text = .ok t) :
    BlockInv t := by
  obtain ⟨ws, hfits, rfl⟩ := loadText_ok h.cursor_le hload
  exact h.replace_mem_cursor (writeFrom_keeps_mem ws hfits ⟨h.mem_wf, h.mem_below⟩) hfits

/-- Settles O39, action by action. -/
theorem hostActionsKeepBlockInv : Obligations.HostActionsKeepBlockInv :=
  ⟨fun _ coreInit => powerOn_blockInv coreInit, fun _ => softReset_keeps_blockInv, fun _ => setG_keeps_blockInv,
    fun _ => loaderWrite_keeps_blockInv, fun _ _ _ => loadText_keeps_blockInv⟩

end Sys2Proof.Safety
end

section
/-! The soft reset's effect on a run and on itself (spec/70_reset_and_hazards.md R153). -/

namespace Sys2Proof.Safety

open Sys2Proof Sys2Proof.Machine

/-- R152: every field the soft reset writes, it writes with a constant. -/
theorem softReset_softReset (s : State) : s.softReset.softReset = s.softReset := rfl

/-- R26: the two columns of the table of reset values differ only in what a soft reset keeps. -/
theorem softReset_powerOn (cfg : BlockConfig) (coreInit : Nat → Word) :
    (State.powerOn cfg coreInit).softReset = State.powerOn cfg coreInit := rfl

/-- R152: the registers after a soft reset, whatever they held. -/
theorem get_softReset_regs (s : State) (r : Reg) : s.softReset.regs.get r = 0 := by
  rw [softReset_regs, get_zeroRegs]

/-- Settles O45: the first sentence holds of the state any run ends in, since the reset reads no register and leaves
the memory. -/
theorem softResetIsIdempotent : Obligations.SoftResetIsIdempotent := by
  refine ⟨fun k s t _ => ⟨get_softReset_regs t, fun a => ?memory⟩, softReset_softReset, softReset_powerOn⟩
  case memory => rw [softReset_mem]

end Sys2Proof.Safety
end

section
/-! What the model's choices give: a next state for every request in a constructed block (spec/60_exceptions.md R120,
R129), and one reset state among the power-ons (spec/10_state.md R26, spec/20_memory.md R39). -/

namespace Sys2Proof.Safety

open Sys2Proof Sys2Proof.Machine

/-- R129: an instruction that faults has a next state too, its fault entry. -/
theorem exec_has_next (i : Instr) (s : State) : ∃ t, exec i s = .next t := by
  rw [exec_eq_perform]
  rcases perform_cases i.func i.mods i.off (armOf i) s with ⟨r, _, h⟩ | ⟨r, _, _, h⟩ | ⟨u, _, _, h⟩
  · exact ⟨takeFault i.func r s, h⟩
  · exact ⟨takeFault i.func r s, h⟩
  · exact ⟨complete u, h⟩

/-- Settles O27, along what a step request can do: nothing, the fault of an entry check, or the decoded instruction. -/
theorem everyStepHasANextState : Obligations.EveryStepHasANextState := by
  intro s hw
  rcases step_cases hw with ⟨_, h⟩ | ⟨r, _, _, h⟩ | ⟨_, _, h⟩ <;> rw [h]
  · exact ⟨idle s, rfl⟩
  · exact ⟨takeFault 0 r s, rfl⟩
  · exact exec_has_next _ s

/-- A memory of any size that holds the unlisted word everywhere lists nothing. -/
theorem ofFn_unlistedWord (n : Nat) : Memory.ofFn n (fun _ => unlistedWord) = { cells := [] } := by
  simp [Memory.ofFn]

/-- R39: where the initial content is the sentinel, Core Memory after construction is the same with `debug` on and
off. -/
theorem initialMemory_sentinel (cfg : BlockConfig) : initialMemory cfg (fun _ => Config.sentinel) = { cells := [] } := by
  unfold initialMemory
  split <;> exact ofFn_unlistedWord _

/-- Settles O44: the two states differ at most in how they give the memory, and that content lists nothing. -/
theorem resetIsOnePowerOn : Obligations.ResetIsOnePowerOn := by
  have hmem : initialMemory Config.atReset (fun _ => 0xFFFF) = State.reset.mem := initialMemory_sentinel _
  refine ⟨?reset, rfl, rfl⟩
  case reset =>
    rw [State.powerOn, hmem]
    rfl

end Sys2Proof.Safety
end
